-- ==== Sys2Proof/Word.lean ====
section
/-!
DEFINITION. The value type of the engine. A memory cell, an operand value, the relative base, an input and an output are
each an `Int64`, a signed 64-bit integer of which "only the range matters, no rule reads a bit pattern" (rules R4, R5), and
"A model stores cells as integers" (decision D8). So the type is Lean's `Int`, and the range is a predicate: the checks of
the instructions use it, and Safety.lean's invariant says that every stored value meets it (log 1).
-/

namespace Sys2Proof

/-- `fits64(v)`: v is an `Int64`, −2^63 ≤ v ≤ 2^63−1 (rule R5, 00_scope section 5). -/
abbrev Fits64 (v : Int) : Prop := -9223372036854775808 ≤ v ∧ v ≤ 9223372036854775807

end Sys2Proof
end

