-- ==== Sys2Proof/Syntax.lean ====
section
/-!
DEFINITION. The instructions: one constructor per row of spec/opcode_table.json, with one addressing mode per operand and
the digits left over above them (rules R50 to R57). The raw operand values are not part of the syntax: they are cells of
memory, read when the operand is resolved (rules R43, R60).
-/

namespace Sys2Proof

/-- The addressing mode of one operand (rules R53 to R55). -/
inductive Mode where
  /-- Digit 0: the operand cell holds an address. -/
  | position
  /-- Digit 1: the operand cell is itself the datum. -/
  | immediate
  /-- Digit 2: the operand cell plus the relative base is an address. -/
  | relative
  /-- A digit that selects no mode (3 … 9); an operand with it faults with InvalidMode (rule R55). -/
  | invalid (digit : Nat)
  deriving DecidableEq, Repr

/-- The ten instructions (rule R57). `leftover` is the value of the digits above the last operand's mode digit; a valid
instruction has 0 there (rule R59). -/
inductive Instr where
  /-- Opcode 1, ADD s1, s2, d (rule R80). -/
  | add (s1 s2 d : Mode) (leftover : Nat)
  /-- Opcode 2, MUL s1, s2, d (rule R81). -/
  | mul (s1 s2 d : Mode) (leftover : Nat)
  /-- Opcode 3, IN d (rule R90). -/
  | inp (d : Mode) (leftover : Nat)
  /-- Opcode 4, OUT s (rule R91). -/
  | out (s1 : Mode) (leftover : Nat)
  /-- Opcode 5, JT c, t (rule R100). -/
  | jt (c t : Mode) (leftover : Nat)
  /-- Opcode 6, JF c, t (rule R101). -/
  | jf (c t : Mode) (leftover : Nat)
  /-- Opcode 7, LT s1, s2, d (rule R110). -/
  | lt (s1 s2 d : Mode) (leftover : Nat)
  /-- Opcode 8, EQ s1, s2, d (rule R111). -/
  | eq (s1 s2 d : Mode) (leftover : Nat)
  /-- Opcode 9, ARB s (rule R120). -/
  | arb (s1 : Mode) (leftover : Nat)
  /-- Opcode 99, HLT (rule R125). -/
  | hlt (leftover : Nat)
  deriving DecidableEq, Repr

/-- The opcode (rule R57). -/
def Instr.opcode : Instr → Nat
  | .add _ _ _ _ => 1
  | .mul _ _ _ _ => 2
  | .inp _ _ => 3
  | .out _ _ => 4
  | .jt _ _ _ => 5
  | .jf _ _ _ => 6
  | .lt _ _ _ _ => 7
  | .eq _ _ _ _ => 8
  | .arb _ _ => 9
  | .hlt _ => 99

/-- The modes of operands 1, 2, 3 in order (rule R53). -/
def Instr.modes : Instr → List Mode
  | .add s1 s2 d _ => [s1, s2, d]
  | .mul s1 s2 d _ => [s1, s2, d]
  | .inp d _ => [d]
  | .out s1 _ => [s1]
  | .jt c t _ => [c, t]
  | .jf c t _ => [c, t]
  | .lt s1 s2 d _ => [s1, s2, d]
  | .eq s1 s2 d _ => [s1, s2, d]
  | .arb s1 _ => [s1]
  | .hlt _ => []

/-- The digits above the consumed mode digits (rule R59). -/
def Instr.leftover : Instr → Nat
  | .add _ _ _ rest => rest
  | .mul _ _ _ rest => rest
  | .inp _ rest => rest
  | .out _ rest => rest
  | .jt _ _ rest => rest
  | .jf _ _ rest => rest
  | .lt _ _ _ rest => rest
  | .eq _ _ _ rest => rest
  | .arb _ rest => rest
  | .hlt rest => rest

/-- The operand count of the opcode (rule R57). -/
def Instr.operandCount : Instr → Nat
  | .add _ _ _ _ => 3
  | .mul _ _ _ _ => 3
  | .inp _ _ => 1
  | .out _ _ => 1
  | .jt _ _ _ => 2
  | .jf _ _ _ => 2
  | .lt _ _ _ _ => 3
  | .eq _ _ _ _ => 3
  | .arb _ _ => 1
  | .hlt _ => 0

/-- The number of cells the instruction occupies, 1 + operand count (rule R50). -/
def Instr.cells (i : Instr) : Nat := 1 + i.operandCount

/-- The mnemonic of the spec's notation (rule R68, decision D25). -/
def Instr.mnemonic : Instr → String
  | .add _ _ _ _ => "ADD"
  | .mul _ _ _ _ => "MUL"
  | .inp _ _ => "IN"
  | .out _ _ => "OUT"
  | .jt _ _ _ => "JT"
  | .jf _ _ _ => "JF"
  | .lt _ _ _ _ => "LT"
  | .eq _ _ _ _ => "EQ"
  | .arb _ _ => "ARB"
  | .hlt _ => "HLT"

end Sys2Proof
end

