-- ==== Sys2Proof/WellFormed.lean ====
section
/-!
DEFINITION. Which instructions are valid (rules R54 to R57, R59, R62, R66): a source operand has mode 0, 1 or 2, a
destination mode 0 or 2, and nothing is left over. An instruction that fails a check is still a term of `Instr`: its
meaning faults in the order of rule R65, since an earlier operand's fault comes before it.
-/

namespace Sys2Proof

/-- A source operand "may have mode 0, 1 or 2" (rule R56). -/
def Mode.validSource : Mode → Bool
  | .position => true
  | .immediate => true
  | .relative => true
  | .invalid _ => false

/-- A destination operand "may have mode 0 or 2" (rules R54, R56, R62). -/
def Mode.validDestination : Mode → Bool
  | .position => true
  | .immediate => false
  | .relative => true
  | .invalid _ => false

/-- One of the 99 valid instructions of rule R57. -/
def Instr.wellFormed : Instr → Bool
  | .add s1 s2 d rest => s1.validSource && s2.validSource && d.validDestination && rest == 0
  | .mul s1 s2 d rest => s1.validSource && s2.validSource && d.validDestination && rest == 0
  | .inp d rest => d.validDestination && rest == 0
  | .out s1 rest => s1.validSource && rest == 0
  | .jt c t rest => c.validSource && t.validSource && rest == 0
  | .jf c t rest => c.validSource && t.validSource && rest == 0
  | .lt s1 s2 d rest => s1.validSource && s2.validSource && d.validDestination && rest == 0
  | .eq s1 s2 d rest => s1.validSource && s2.validSource && d.validDestination && rest == 0
  | .arb s1 rest => s1.validSource && rest == 0
  | .hlt rest => rest == 0

/-- A mode as a digit can give it: `invalid` carries one of the digits 3 … 9 (rule R55). -/
def Mode.isDigit : Mode → Bool
  | .position => true
  | .immediate => true
  | .relative => true
  | .invalid digit => decide (3 ≤ digit) && decide (digit ≤ 9)

/-- An instruction as some word can give it: every mode stands for a decimal digit. It may be ill-formed. -/
def Instr.encodable (i : Instr) : Bool := i.modes.all Mode.isDigit

end Sys2Proof
end

