-- ==== Sys2Proof/Decode.lean ====
section
/-!
DEFINITION. The decimal decoder and encoder of one instruction word (rules R50 to R59), and the host's numbering of an
instruction's bits. The decoder is total on integers; it rejects, by name, a negative word and an unknown opcode. A word
with an invalid mode digit or leftover digits decodes to an ill-formed instruction, whose meaning faults in the order of
rule R65 (log 7).
-/

namespace Sys2Proof

/-- Why a word is no instruction word. Both fault with IllegalOpcode (rules R52, R58). -/
inductive DecodeError where
  /-- w < 0 (rule R52). -/
  | negativeWord
  /-- `op` is 0 or 10 … 98 (rule R58). -/
  | unknownOpcode (op : Nat)
  deriving DecidableEq, Repr

/-- `dig_k(v)`, the decimal digit of weight 10^k (00_scope section 5). -/
def digit (k v : Nat) : Nat := v / 10 ^ k % 10

/-- The mode a digit selects (rules R54, R55). -/
def Mode.ofDigit : Nat → Mode
  | 0 => .position
  | 1 => .immediate
  | 2 => .relative
  | d => .invalid d

/-- The digit of a mode (rules R54, R55). -/
def Mode.digit : Mode → Nat
  | .position => 0
  | .immediate => 1
  | .relative => 2
  | .invalid d => d

/-- The mode of operand k, the k-th digit of the mode string (rule R53). -/
def modeOf (k modes : Nat) : Mode := Mode.ofDigit (digit (k - 1) modes)

/-- The instruction of an opcode and a mode string (rules R51, R57, R58). -/
def decodeFields (op modes : Nat) : Except DecodeError Instr :=
  match op with
  | 1 => .ok (.add (modeOf 1 modes) (modeOf 2 modes) (modeOf 3 modes) (modes / 1000))
  | 2 => .ok (.mul (modeOf 1 modes) (modeOf 2 modes) (modeOf 3 modes) (modes / 1000))
  | 3 => .ok (.inp (modeOf 1 modes) (modes / 10))
  | 4 => .ok (.out (modeOf 1 modes) (modes / 10))
  | 5 => .ok (.jt (modeOf 1 modes) (modeOf 2 modes) (modes / 100))
  | 6 => .ok (.jf (modeOf 1 modes) (modeOf 2 modes) (modes / 100))
  | 7 => .ok (.lt (modeOf 1 modes) (modeOf 2 modes) (modeOf 3 modes) (modes / 1000))
  | 8 => .ok (.eq (modeOf 1 modes) (modeOf 2 modes) (modeOf 3 modes) (modes / 1000))
  | 9 => .ok (.arb (modeOf 1 modes) (modes / 10))
  | 99 => .ok (.hlt modes)
  | op => .error (.unknownOpcode op)

/-- The instruction of a word: `op` = w mod 100, `modes` = w div 100 for w ≥ 0 (rules R51, R52). -/
def decode (w : Int) : Except DecodeError Instr :=
  if w < 0 then .error .negativeWord else decodeFields (w.toNat % 100) (w.toNat / 100)

/-- The mode string of modes m1, m2, … with the leftover digits above them (rules R51, R53). -/
def modeString : List Mode → Nat → Nat
  | [], leftover => leftover
  | m :: ms, leftover => m.digit + 10 * modeString ms leftover

/-- The instruction word, `modes`·100 + `op` (rules R51, R68). -/
def encode (i : Instr) : Int := ((i.opcode + 100 * modeString i.modes i.leftover : Nat) : Int)

/-- The instruction's cells in ascending address order: its word, then its raw operands (rules R50, R60, R68). -/
def encodeCells (i : Instr) (raw : List Int) : List Int := encode i :: raw

/-- The signed value of 64 bits in two's complement: how the host's bit numbering is read as a cell (log 15; no rule of
the spec reads a bit pattern, rule R31). -/
def signed64 (bits : Nat) : Int :=
  if bits < 9223372036854775808 then (bits : Int) else (bits : Int) - 18446744073709551616

/-- Cell k of an instruction given as one number of `nbits` bits, first cell lowest, 64 bits a cell, zeros above. -/
def tableCell (nbits w k : Nat) : Int :=
  signed64 (w % 2 ^ nbits / 2 ^ (64 * k) % 18446744073709551616)

/-- The instruction the decoder reads from the first cell of an instruction whose bits are `w` (the host's question about
a row of spec/opcode_table.json). The operand cells do not take part in decoding (rule R67). -/
def decodeTableWord (nbits w : Nat) : Option Instr :=
  match decode (tableCell nbits w 0) with
  | .ok i => some i
  | .error _ => none

end Sys2Proof
end

