-- ==== Sys2Proof/Machine/Flags.lean ====
section
/-!
DEFINITION. The hardware has no flags, condition codes or predicates (rule R20): "The comparison instructions write their
result, 1 or 0, to a memory destination". What stands here is that truth value.
-/

namespace Sys2Proof.Machine

/-- "exactly 1 or exactly 0, never another non-zero value" (rules R20, R110, R111). -/
def truth (p : Bool) : Int := if p then 1 else 0

end Sys2Proof.Machine
end

