-- ==== Sys2Proof/Config.lean ====
section
/-!
DEFINITION. The two OPEN parameters of the hardware, MEM_CAP and INQ_CAP (rule R4, decisions D5 and D6). A model takes
each "as an argument, a natural number or ∞". Nothing else is left open by the spec, so there is no free value.
-/

namespace Sys2Proof

/-- A capacity: a natural number or ∞ (rule R4). -/
inductive Cap where
  /-- Exactly `n` places, numbered 0 … n−1. -/
  | limit (n : Nat)
  /-- No limit: the source-literal machine. -/
  | infinite
  deriving DecidableEq, Repr

/-- The parameters of one engine (rules R4, R7). No rule writes them. -/
structure Config where
  /-- `MEM_CAP`: addresses 0 … `MEM_CAP` − 1 are usable (rules R4, R35). -/
  memCap : Cap
  /-- `INQ_CAP`: the number of entries the input queue can hold (rules R4, R15). -/
  inqCap : Cap
  deriving DecidableEq, Repr

/-- The source-literal machine: both capacities ∞ (rule R4, decisions D5, D6). DESIGN CHOICE, unsafe for a claim about
runs from reset that touch addresses past a real device's memory: assumption log 2. -/
def Config.sourceLiteral : Config := Config.mk .infinite .infinite

end Sys2Proof
end

