-- ==== Sys2Proof/Machine/State.lean ====
section
/-!
DEFINITION. The state of one engine instance: the nine items of rule R10, and the two parameters of rule R4 carried
beside them. Plain data. The faults and refusals of the model, and the state after reset.
-/

namespace Sys2Proof.Machine

/-- The run status (rule R16). -/
inductive Status where
  /-- Constructed, never run. -/
  | ready
  /-- A run is in progress; the host never sees this value. -/
  | running
  /-- The last run stopped at an IN with the queue empty. -/
  | needInput
  /-- The last run stopped after an OUT; `out` holds the value. -/
  | haveOutput
  /-- The last run executed HLT. -/
  | halted
  /-- A fatal failure was detected; terminal. -/
  | faulted
  deriving DecidableEq, Repr

/-- The fault causes (rule R161). `none` is code 0. -/
inductive Cause where
  | none
  | illegalOpcode
  | invalidMode
  | immediateStore
  | negativeAddress
  | leftoverModeDigits
  | negativeJumpTarget
  | arithmeticOverflow
  | memoryExhausted
  | runAfterHalt
  | inputStarved
  /-- Raised by the loader only, before an instance exists (rule R172). -/
  | parseError
  /-- Reserved; no rule raises it (rule R173). -/
  | instructionPastEnd
  deriving DecidableEq, Repr

/-- The numeric code of a cause, the content of the `CAUSE` register (rule R161). -/
def Cause.code : Cause → Nat
  | .none => 0
  | .illegalOpcode => 1
  | .invalidMode => 2
  | .immediateStore => 3
  | .negativeAddress => 4
  | .leftoverModeDigits => 5
  | .negativeJumpTarget => 6
  | .arithmeticOverflow => 7
  | .memoryExhausted => 8
  | .runAfterHalt => 9
  | .inputStarved => 10
  | .parseError => 11
  | .instructionPastEnd => 12

/-- Memory as (address, value) pairs: addresses strictly rising, no pair with value 0, an unlisted address reads 0
(rules R11, R36; log 3). The unit is the cell, the hardware's smallest addressable unit (rules R30, R31). -/
abbrev Memory := List (Nat × Int)

/-- The canonical form of a memory. -/
abbrev Memory.wf (m : Memory) : Prop := m.Pairwise (fun x y => x.1 < y.1) ∧ ∀ c ∈ m, c.2 ≠ 0

/-- One engine instance (rule R10), with its parameters (rules R4, R7). -/
structure State where
  /-- The parameters `MEM_CAP` and `INQ_CAP`. Read by the access primitives and the host's appends, written by nothing
  (log 2). -/
  cfg : Config
  /-- `MEM` (rule R11), in the abstract view of rule R36. -/
  mem : Memory
  /-- `LEN` (rule R12). -/
  len : Nat
  /-- `IP` (rule R13). -/
  ip : Nat
  /-- `RB` (rule R14). -/
  rb : Int
  /-- `INQ`, front first (rule R15). -/
  inq : List Int
  /-- `STATUS` (rule R16). -/
  status : Status
  /-- `OUT` (rule R17). -/
  out : Int
  /-- `CAUSE` (rule R18). -/
  cause : Cause
  /-- `INFO` (rule R18). -/
  info : Int
  deriving DecidableEq, Repr

/-- Why there is no next state. -/
inductive Fault where
  /-- Raised by an instruction or a fetch that fails a check, by a step of a Halted instance (RunAfterHalt), and by every
  step of a Faulted one: "a fault is an outcome of the step function distinct from a next state", and the faulted instance
  "never resumes" (rules R160, R176). It carries the instance as the fault entry of rule R175 leaves it: STATUS Faulted,
  CAUSE and INFO, everything else as before the instruction but for growth; a step of a Faulted instance leaves it as it
  is. Safe (log 6). -/
  | faulted (after : State)
  /-- Raised by the host operation `create` (MemoryExhausted, rules R169, R190) and by the loader (ParseError, rules R172,
  R193): no instance results, so no STATUS can hold it (rule R185). Safe (log 13). -/
  | noInstance (cause : Cause) (info : Int)
  deriving DecidableEq, Repr

/-- Why the model gives an operation no meaning. No instruction and no `step` is refused. -/
inductive Refusal where
  /-- An instruction without a meaning yet; no arm of `exec` uses it now. Safe. -/
  | notModelled (mnemonic : String)
  /-- A host operation that rule R134 refuses on a Faulted instance. Safe: "the model gives the operation no successor
  state". -/
  | instanceFaulted
  /-- `add_input` or `with_inputs` past `INQ_CAP` (rules R136, R137, decision D6). Safe. -/
  | inputQueueFull
  /-- A host value outside Int64: the interface's type is int64 (rule R135), so no host can send it. Safe (log 12). -/
  | notInt64
  /-- A host operation while STATUS is Running: it cannot occur (rules R133, R142). Safe (log 11). -/
  | runInProgress
  deriving DecidableEq, Repr

/-- The machine right after reset: `create([])` (rules R22, R190), on the source-literal machine (log 2, 4). -/
def State.reset : State where
  cfg := Config.sourceLiteral
  mem := []
  len := 0
  ip := 0
  rb := 0
  inq := []
  status := .ready
  out := 0
  cause := .none
  info := 0

end Sys2Proof.Machine
end

