-- ==== Sys2Proof/Machine/Ops.lean ====
section
/-!
DEFINITION. The named operations over memory and registers: one cell's read and write, growth, the access primitives
`MemRead` and `MemWrite` (rules R32, R33, R35), fault entry `raise` (rule R175), `stop` (rule R132), and the result of a
part of an instruction, which threads the state because reads grow memory.
-/

namespace Sys2Proof

/-- Address a is below the capacity, so it is usable (rules R4, R35). -/
def Cap.below (c : Cap) (a : Nat) : Bool :=
  match c with
  | .limit n => decide (a < n)
  | .infinite => true

/-- n things fit the capacity (rules R12, R15). -/
def Cap.holds (c : Cap) (n : Nat) : Bool :=
  match c with
  | .limit k => decide (n ≤ k)
  | .infinite => true

end Sys2Proof

namespace Sys2Proof.Machine

/-- `M(a)`: the value of cell a, 0 where it does not exist (rule R36). -/
def Memory.read : Memory → Nat → Int
  | [], _ => 0
  | (b, v) :: rest, a => if a = b then v else Memory.read rest a

/-- Put a pair in its place by address. -/
def Memory.insert : Memory → Nat → Int → Memory
  | [], a, v => [(a, v)]
  | (b, u) :: rest, a, v => if a < b then (a, v) :: (b, u) :: rest else (b, u) :: Memory.insert rest a v

/-- `M` changed at a only (rule R36). Writing 0 removes the pair, so the form stays canonical. -/
def Memory.write (m : Memory) (a : Nat) (v : Int) : Memory :=
  if v = 0 then m.filter (fun c => c.1 ≠ a) else Memory.insert (m.filter (fun c => c.1 ≠ a)) a v

/-- The cells c0, c1, … at addresses i, i + 1, … (rule R190). -/
def Memory.ofCells : Nat → List Int → Memory
  | _, [] => []
  | i, v :: vs => if v = 0 then Memory.ofCells (i + 1) vs else (i, v) :: Memory.ofCells (i + 1) vs

/-- Growth up to and including a: `LEN` ← a + 1 when a ≥ `LEN` (rules R12, R32, R33). The new cells hold 0, which an
unlisted address already reads as. -/
def State.grow (a : Nat) (s : State) : State := { s with len := max s.len (a + 1) }

/-- Fault entry (rule R175): STATUS, CAUSE and INFO are written, nothing else. -/
def State.raise (cause : Cause) (info : Int) (s : State) : State :=
  { s with status := .faulted, cause := cause, info := info }

/-- `stop S` (rule R132). -/
def State.stop (status : Status) (s : State) : State := { s with status := status }

/-- `IP` ← `IP` + n (rule R13). -/
def State.advance (n : Nat) (s : State) : State := { s with ip := s.ip + n }

/-- The result of a part of an instruction or host operation: it went on with a value, or a check failed. Either way it
carries the state so far, which differs from the start by growth until the commit (rules R65, R175). -/
inductive Res (α : Type) where
  | ok (a : α) (s : State)
  | trap (cause : Cause) (info : Int) (s : State)
  deriving DecidableEq, Repr

/-- Go on after a part that succeeded; "the first check that fails decides" (rule R65). -/
def Res.andThen {α β : Type} (r : Res α) (next : α → State → Res β) : Res β :=
  match r with
  | .ok a s => next a s
  | .trap cause info s => .trap cause info s

/-- A fault: the outcome distinct from a next state (rule R160), with the instance as the fault entry of rule R175 leaves
it (log 6). -/
def State.faultOut (cause : Cause) (info : Int) (s : State) : Host.Outcome State Fault Refusal :=
  .fault (.faulted (s.raise cause info))

/-- The end of an instruction: it committed, which is a next state, or it faults (rules R65, R160, R175). -/
def Res.outcome (r : Res Unit) : Host.Outcome State Fault Refusal :=
  match r with
  | .ok _ s => .next s
  | .trap cause info s => s.faultOut cause info

/-- `MemRead(a, 1)` (rules R32, R35). -/
def memRead (a : Nat) (s : State) : Res Int :=
  if s.cfg.memCap.below a then .ok (s.mem.read a) (s.grow a) else .trap .memoryExhausted a s

/-- `MemWrite(a, 1, v)` (rules R33, R35). -/
def memWrite (a : Nat) (v : Int) (s : State) : Res Unit :=
  if s.cfg.memCap.below a then .ok () { s.grow a with mem := s.mem.write a v } else .trap .memoryExhausted a s

/-- An exact result must be an `Int64`, else ArithmeticOverflow with the instruction word (rules R63, R82, R168). -/
def checkFits (w : Int) (r : Int) (s : State) : Res Int :=
  if Fits64 r then .ok r s else .trap .arithmeticOverflow w s

end Sys2Proof.Machine
end

