-- ==== Sys2Proof/Machine/Operands.lean ====
section
/-!
DEFINITION. The addressing-mode decoder: the raw operand cell (rule R60), resolution of a source and of a destination
(rules R61 to R64), the leftover check (rule R59), and the shared operand sequence of the three-operand instructions.
`w` is the instruction word at `IP`, the value that most faults record (rule R161).
-/

namespace Sys2Proof.Machine

/-- `p_k` = `MemRead(IP + k, 1)` (rule R60). -/
def rawOperand (k : Nat) (s : State) : Res Int := memRead (s.ip + k) s

/-- A resolved address must be non-negative, else NegativeAddress with the address (rule R64). -/
def checkAddress (a : Int) (s : State) : Res Nat :=
  if a < 0 then .trap .negativeAddress a s else .ok a.toNat s

/-- A destination must be below `MEM_CAP` (rules R35, R62). The cell is not touched yet, so nothing grows. -/
def checkCapacity (a : Nat) (s : State) : Res Nat :=
  if s.cfg.memCap.below a then .ok a s else .trap .memoryExhausted a s

/-- The effective address of a relative operand, `RB` + p in ℤ (rule R63). -/
def relativeAddress (w p : Int) (s : State) : Res Int := checkFits w (s.rb + p) s

/-- `ReadOperand(k)` (rule R61). -/
def readOperand (w : Int) (k : Nat) (m : Mode) (s : State) : Res Int :=
  match m with
  | .position =>
    (rawOperand k s).andThen fun p s => (checkAddress p s).andThen fun a s => memRead a s
  | .immediate => rawOperand k s
  | .relative =>
    (rawOperand k s).andThen fun p s => (relativeAddress w p s).andThen fun a s =>
      (checkAddress a s).andThen fun a s => memRead a s
  | .invalid _ => .trap .invalidMode w s

/-- `WriteOperand(k)` (rule R62). -/
def writeOperand (w : Int) (k : Nat) (m : Mode) (s : State) : Res Nat :=
  match m with
  | .position =>
    (rawOperand k s).andThen fun p s => (checkAddress p s).andThen fun a s => checkCapacity a s
  | .immediate => .trap .immediateStore w s
  | .relative =>
    (rawOperand k s).andThen fun p s => (relativeAddress w p s).andThen fun a s =>
      (checkAddress a s).andThen fun a s => checkCapacity a s
  | .invalid _ => .trap .invalidMode w s

/-- `CheckLeftover(n)` (rule R59). -/
def checkLeftover (w : Int) (leftover : Nat) (s : State) : Res Unit :=
  if leftover = 0 then .ok () s else .trap .leftoverModeDigits w s

/-- Format F3 (rule R56): two sources, a destination, the leftover check, the result, the one store, `IP` + 4 (rules R43,
R65, R80, R81, R110, R111). `compute` is the instruction's own part. -/
def threeOperand (w : Int) (s1 s2 d : Mode) (leftover : Nat) (compute : Int → Int → State → Res Int) (s : State) :
    Res Unit :=
  (readOperand w 1 s1 s).andThen fun a s =>
  (readOperand w 2 s2 s).andThen fun b s =>
  (writeOperand w 3 d s).andThen fun dst s =>
  (checkLeftover w leftover s).andThen fun _ s =>
  (compute a b s).andThen fun r s =>
  (memWrite dst r s).andThen fun _ s => .ok () (s.advance 4)

/-- Format F2 (rules R56, R100, R101): both operands are resolved whether or not the jump is taken; the sign of the
target is tested only when it is taken. -/
def jumpWhen (w : Int) (c t : Mode) (leftover : Nat) (taken : Int → Bool) (s : State) : Res Unit :=
  (readOperand w 1 c s).andThen fun cond s =>
  (readOperand w 2 t s).andThen fun target s =>
  (checkLeftover w leftover s).andThen fun _ s =>
  if taken cond then
    if target < 0 then .trap .negativeJumpTarget target s else .ok () { s with ip := target.toNat }
  else .ok () (s.advance 3)

end Sys2Proof.Machine
end

