-- ==== Sys2Proof/Machine/Arithmetic.lean ====
section
/-!
DEFINITION. ADD and MUL (40_arithmetic.md).
-/

namespace Sys2Proof.Machine

/-- ADD (rule R80): the exact sum, ArithmeticOverflow when it is no `Int64` (rule R82). -/
def execAdd (s1 s2 d : Mode) (leftover : Nat) (s : State) : Host.Outcome State Fault Refusal :=
  let w := encode (.add s1 s2 d leftover)
  (threeOperand w s1 s2 d leftover (fun a b s => checkFits w (a + b) s) s).outcome

/-- MUL (rule R81): the exact product, ArithmeticOverflow when it is no `Int64` (rule R82). -/
def execMul (s1 s2 d : Mode) (leftover : Nat) (s : State) : Host.Outcome State Fault Refusal :=
  let w := encode (.mul s1 s2 d leftover)
  (threeOperand w s1 s2 d leftover (fun a b s => checkFits w (a * b) s) s).outcome

end Sys2Proof.Machine
end

