-- ==== Sys2Proof/Machine/Compare.lean ====
section
/-!
DEFINITION. LT and EQ (43_compare.md). Neither can overflow (rule R82).
-/

namespace Sys2Proof.Machine

/-- LT (rule R110): 1 if src1 < src2 as integers, else 0. -/
def execLt (s1 s2 d : Mode) (leftover : Nat) (s : State) : Host.Outcome State Fault Refusal :=
  (threeOperand (encode (.lt s1 s2 d leftover)) s1 s2 d leftover (fun a b s => .ok (truth (decide (a < b))) s) s).outcome

/-- EQ (rule R111): 1 if src1 = src2, else 0. -/
def execEq (s1 s2 d : Mode) (leftover : Nat) (s : State) : Host.Outcome State Fault Refusal :=
  (threeOperand (encode (.eq s1 s2 d leftover)) s1 s2 d leftover (fun a b s => .ok (truth (decide (a = b))) s) s).outcome

end Sys2Proof.Machine
end

