-- ==== Sys2Proof/Machine/Halt.lean ====
section
/-!
DEFINITION. HLT (45_halt.md).
-/

namespace Sys2Proof.Machine

/-- HLT (rule R125): the run stops with Halted, `IP` unchanged; any mode digit is left over. -/
def execHlt (leftover : Nat) (s : State) : Host.Outcome State Fault Refusal :=
  ((checkLeftover (encode (.hlt leftover)) leftover s).andThen fun _ s => .ok () (s.stop .halted)).outcome

end Sys2Proof.Machine
end

