-- ==== Sys2Proof/Machine/InOut.lean ====
section
/-!
DEFINITION. IN and OUT (41_io.md).
-/

namespace Sys2Proof.Machine

/-- The commit of IN once its checks have passed (rule R90): with an empty queue the run stops with NeedInput and nothing
is consumed; otherwise the front of the queue is removed and stored. -/
def takeInput (dst : Nat) (s : State) : Res Unit :=
  match s.inq with
  | [] => .ok () (s.stop .needInput)
  | v :: rest => (memWrite dst v { s with inq := rest }).andThen fun _ s => .ok () (s.advance 2)

/-- IN (rule R90): the fault checks come before the empty-queue test. -/
def execInp (d : Mode) (leftover : Nat) (s : State) : Host.Outcome State Fault Refusal :=
  let w := encode (.inp d leftover)
  ((writeOperand w 1 d s).andThen fun dst s =>
    (checkLeftover w leftover s).andThen fun _ s => takeInput dst s).outcome

/-- OUT (rule R91): the output register, `IP` past the instruction, and the run stops with HaveOutput. -/
def execOut (s1 : Mode) (leftover : Nat) (s : State) : Host.Outcome State Fault Refusal :=
  let w := encode (.out s1 leftover)
  ((readOperand w 1 s1 s).andThen fun v s =>
    (checkLeftover w leftover s).andThen fun _ s =>
      .ok () (({ s with out := v }).advance 2 |>.stop .haveOutput)).outcome

end Sys2Proof.Machine
end

