-- ==== Sys2Proof/Machine/Jumps.lean ====
section
/-!
DEFINITION. JT and JF (42_jumps.md).
-/

namespace Sys2Proof.Machine

/-- JT (rule R100): jump when the condition is not 0. -/
def execJt (c t : Mode) (leftover : Nat) (s : State) : Host.Outcome State Fault Refusal :=
  (jumpWhen (encode (.jt c t leftover)) c t leftover (fun cond => cond != 0) s).outcome

/-- JF (rule R101): jump when the condition is 0. -/
def execJf (c t : Mode) (leftover : Nat) (s : State) : Host.Outcome State Fault Refusal :=
  (jumpWhen (encode (.jf c t leftover)) c t leftover (fun cond => cond == 0) s).outcome

end Sys2Proof.Machine
end

