-- ==== Sys2Proof/Machine/RelativeBase.lean ====
section
/-!
DEFINITION. ARB (44_relative_base.md).
-/

namespace Sys2Proof.Machine

/-- ARB (rule R120): `RB` + the operand, ArithmeticOverflow when it is no `Int64`. -/
def execArb (s1 : Mode) (leftover : Nat) (s : State) : Host.Outcome State Fault Refusal :=
  let w := encode (.arb s1 leftover)
  ((readOperand w 1 s1 s).andThen fun v s =>
    (checkLeftover w leftover s).andThen fun _ s =>
      (checkFits w (s.rb + v) s).andThen fun r s => .ok () ({ s with rb := r }.advance 2)).outcome

end Sys2Proof.Machine
end

