-- ==== Sys2Proof/Machine/Dispatch.lean ====
section
/-!
DEFINITION. The dispatch on the opcode (rule R131): one arm per instruction, each one call of its meaning.
-/

namespace Sys2Proof.Machine

def exec (i : Instr) (s : State) : Host.Outcome State Fault Refusal :=
  match i with
  | .add s1 s2 d leftover => Sys2Proof.Machine.execAdd s1 s2 d leftover s
  | .mul s1 s2 d leftover => Sys2Proof.Machine.execMul s1 s2 d leftover s
  | .inp d leftover => Sys2Proof.Machine.execInp d leftover s
  | .out s1 leftover => Sys2Proof.Machine.execOut s1 leftover s
  | .jt c t leftover => Sys2Proof.Machine.execJt c t leftover s
  | .jf c t leftover => Sys2Proof.Machine.execJf c t leftover s
  | .lt s1 s2 d leftover => Sys2Proof.Machine.execLt s1 s2 d leftover s
  | .eq s1 s2 d leftover => Sys2Proof.Machine.execEq s1 s2 d leftover s
  | .arb s1 leftover => Sys2Proof.Machine.execArb s1 leftover s
  | .hlt leftover => Sys2Proof.Machine.execHlt leftover s

end Sys2Proof.Machine
end

