-- ==== Sys2Proof/Machine/RunLoop.lean ====
section
/-!
DEFINITION. Fetch, decode and the run loop (rules R130, R131): one `Step` of the engine, and one move of an instance whose
host calls `run` whenever no run is in progress (log 5).
-/

namespace Sys2Proof.Machine

/-- Fetch and decode (rule R131): the word at `IP` through `MemRead`; a negative word or an unknown opcode raises
IllegalOpcode with the word (rules R52, R58, R162). -/
def fetch (s : State) : Res Instr :=
  (memRead s.ip s).andThen fun w s =>
    match decode w with
    | .ok i => .ok i s
    | .error _ => .trap .illegalOpcode w s

/-- `Step` (rule R131). -/
def engineStep (s : State) : Host.Outcome State Fault Refusal :=
  match fetch s with
  | .ok i s => exec i s
  | .trap cause info s => s.faultOut cause info

/-- The start of a `run` in Ready, NeedInput or HaveOutput: STATUS ← Running (rule R130). -/
def State.startRun (s : State) : State := { s with status := .running }

/-- One move (rules R130, R131, R133). With a run in progress: one `Step`. Between runs the host calls `run`: it starts
and makes its first `Step`; on a Halted instance it raises RunAfterHalt with `IP`; on a Faulted one it is the same fault
again and nothing changes (rules R134, R176; log 6). -/
def runStep (s : State) : Host.Outcome State Fault Refusal :=
  match s.status with
  | .ready | .running | .needInput | .haveOutput => engineStep s.startRun
  | .halted => s.faultOut .runAfterHalt s.ip
  | .faulted => .fault (.faulted s)

end Sys2Proof.Machine
end

