-- ==== Sys2Proof/Machine/Step.lean ====
section
/-!
DEFINITION. The step of the machine, and the host's placing of an instruction where the next step fetches it.
-/

namespace Sys2Proof.Machine

/-- One step: one instruction, or what a `run` does on an instance that cannot run (rules R130, R131; log 5, 6). -/
def step (s : State) : Host.Outcome State Fault Refusal := runStep s

/-- `s` with the four cells of an instruction of `nbits` bits (the longest instruction, rule R50) stored at `IP`, and with
a STATUS in which `run` runs it: a Halted or Faulted instance becomes Ready, as a fresh one is (log 14). -/
def State.withFetchWord (s : State) (nbits w : Nat) : State :=
  let mem := (((s.mem.write s.ip (tableCell nbits w 0)).write (s.ip + 1) (tableCell nbits w 1)).write (s.ip + 2)
    (tableCell nbits w 2)).write (s.ip + 3) (tableCell nbits w 3)
  let placed := { s with mem := mem, len := max s.len (s.ip + 4) }
  match s.status with
  | .halted => { placed with status := .ready }
  | .faulted => { placed with status := .ready, cause := .none, info := 0 }
  | _ => placed

end Sys2Proof.Machine
end

