-- ==== Sys2Proof/Machine/HostOps.lean ====
section
/-!
DEFINITION. The eight operations of the host (46_dispatch_and_host.md sections 2 and 3, rule R190), each a function on
the state, with the admissibility table of rule R134. A `run` and a `collect_outputs` need fuel (rule R143).
-/

namespace Sys2Proof.Machine

/-- The host operations of rule R135. -/
inductive HostOp where
  | create (cfg : Config) (program : List Int)
  | withInputs (values : List Int)
  | addInput (value : Int)
  | run
  | collectOutputs
  | peek (address : Nat)
  | poke (address : Nat) (value : Int)
  | clone
  deriving DecidableEq, Repr

/-- What the host gets back (rules R135, R144, R145). -/
inductive HostResult where
  /-- An operation without a result was performed. -/
  | done
  /-- The value of a `peek`. -/
  | value (v : Int)
  /-- The sequence of a `collect_outputs`. -/
  | outputs (vs : List Int)
  /-- The new instance of a `create` or `clone`. -/
  | made (fresh : State)
  /-- A `create` that made no instance, and why (log 19). -/
  | notMade (why : Fault)
  | halted
  | needInput
  | haveOutput (v : Int)
  | faulted (cause : Cause) (info : Int)
  /-- The model's fuel ran out before the run ended; the state is in the middle of the run (rule R143, log 10). -/
  | unfinished
  deriving DecidableEq, Repr

/-- A host operation ends with a result and the instance's next state, or is refused, or yields no instance. -/
abbrev HostOutcome := Host.Outcome (HostResult × State) Fault Refusal

/-- The reset state with a program loaded (rules R22, R190). -/
def State.initial (cfg : Config) (program : List Int) : State :=
  { State.reset with cfg := cfg, mem := Memory.ofCells 0 program, len := program.length }

/-- The address MEM_CAP of the first cell that does not fit (rule R169). -/
def firstOutside : Cap → Int
  | .limit n => n
  | .infinite => 0

/-- `create(program)` (rule R190): a fresh instance, or MemoryExhausted and no instance when the program is too long. The
spec's `create` names no capacity; that the host gives each its own, also beside an existing instance, is the model's choice
(log 20). -/
def create (cfg : Config) (program : List Int) : Host.Outcome State Fault Refusal :=
  if program.all (fun v => decide (Fits64 v)) then
    if cfg.memCap.holds program.length then .next (State.initial cfg program)
    else .fault (.noInstance .memoryExhausted (firstOutside cfg.memCap))
  else .refused .notInt64

/-- `with_inputs` (rule R136); `add_input(v)` is the case of one value (rule R137, decision D21). -/
def appendInputs (vs : List Int) (s : State) : HostOutcome :=
  if vs.all (fun v => decide (Fits64 v)) then
    if s.cfg.inqCap.holds (s.inq.length + vs.length) then .next (.done, { s with inq := s.inq ++ vs })
    else .refused .inputQueueFull
  else .refused .notInt64

/-- `peek(a)` (rule R138). -/
def peek (a : Nat) (s : State) : HostOutcome :=
  match memRead a s with
  | .ok v t => .next (.value v, t)
  | .trap cause info t => .next (.faulted cause info, t.raise cause info)

/-- `poke(a, v)` (rule R139). -/
def poke (a : Nat) (v : Int) (s : State) : HostOutcome :=
  if Fits64 v then
    match memWrite a v s with
    | .ok _ t => .next (.done, t)
    | .trap cause info t => .next (.faulted cause info, t.raise cause info)
  else .refused .notInt64

/-- The result of a run that has ended: `STATUS` read with `OUT`, or with `CAUSE` and `INFO` (rule R145). -/
def State.runResult (s : State) : HostResult :=
  match s.status with
  | .halted => .halted
  | .needInput => .needInput
  | .haveOutput => .haveOutput s.out
  | .faulted => .faulted s.cause s.info
  | .ready | .running => .unfinished

/-- `while STATUS = Running: Step()`, then the result (rule R130), with fuel for at most so many instructions. A `Step` that
faults ends the run with the result Faulted, and the host keeps the faulted instance (rules R145, R175). -/
def runLoop : Nat → State → HostOutcome
  | 0, s => .next (s.runResult, s)
  | fuel + 1, s =>
    if s.status = .running then
      match engineStep s with
      | .next t => runLoop fuel t
      | .fault (.faulted t) => .next (t.runResult, t)
      | .fault (.noInstance cause info) => .fault (.noInstance cause info)
      | .refused r => .refused r
    else .next (s.runResult, s)

/-- `run` (rules R130, R134). -/
def hostRun (fuel : Nat) (s : State) : HostOutcome :=
  match s.status with
  | .ready | .needInput | .haveOutput => runLoop fuel s.startRun
  | .halted => .next (.faulted .runAfterHalt s.ip, s.raise .runAfterHalt s.ip)
  | .faulted => .next (.faulted s.cause s.info, s)
  | .running => .refused .runInProgress

/-- The loop of `collect_outputs` (rule R141) for at most so many runs, `outs` collected so far. -/
def collectLoop (fuel : Nat) : Nat → List Int → State → HostOutcome
  | 0, _, s => .next (.unfinished, s)
  | runs + 1, outs, s =>
    match hostRun fuel s with
    | .next (.haveOutput v, t) => collectLoop fuel runs (outs ++ [v]) t
    | .next (.halted, t) => .next (.outputs outs, t)
    | .next (.needInput, t) => .next (.faulted .inputStarved t.ip, t.raise .inputStarved t.ip)
    | .next (r, t) => .next (r, t)
    | .fault f => .fault f
    | .refused r => .refused r

/-- `clone()` (rule R140): the new instance equals this one, which is unchanged (log 18). -/
def clone (s : State) : HostOutcome := .next (.made s, s)

/-- `create` as an operation of a host that already has an instance: "the existing one is untouched" (rule R134). The rule
says so of a `create` that makes an instance; that one which fails with MemoryExhausted, and so makes none (rules R185,
R190), leaves the existing instance untouched too is the model's choice (log 19), and so is that the new instance may have
other capacities than the existing one (log 20). -/
def createBeside (cfg : Config) (program : List Int) (s : State) : HostOutcome :=
  match create cfg program with
  | .next fresh => .next (.made fresh, s)
  | .fault f => .next (.notMade f, s)
  | .refused r => .refused r

/-- The operations that rule R134 refuses on a Faulted instance. -/
def HostOp.needsSound : HostOp → Bool
  | .create _ _ => false
  | .withInputs _ => true
  | .addInput _ => true
  | .run => false
  | .collectOutputs => false
  | .peek _ => true
  | .poke _ _ => true
  | .clone => true

/-- One host operation (rules R133 to R142). -/
def hostOp (fuel : Nat) (op : HostOp) (s : State) : HostOutcome :=
  if s.status = .running then .refused .runInProgress
  else if s.status = .faulted ∧ op.needsSound = true then .refused .instanceFaulted
  else match op with
    | .create cfg program => createBeside cfg program s
    | .withInputs vs => appendInputs vs s
    | .addInput v => appendInputs [v] s
    | .run => hostRun fuel s
    | .collectOutputs => collectLoop fuel fuel [] s
    | .peek a => peek a s
    | .poke a v => poke a v s
    | .clone => clone s

end Sys2Proof.Machine
end

