-- ==== Sys2Proof/Machine/Loader.lean ====
section
/-!
DEFINITION. The program text and its loader (rules R192, R193): the external form from which the host obtains the
argument of `create`. Text is a list of characters.
-/

namespace Sys2Proof.Machine

/-- `digit` (rule R192). -/
def digitValue (c : Char) : Option Nat :=
  if 48 ≤ c.toNat ∧ c.toNat ≤ 57 then some (c.toNat - 48) else none

/-- The value of a run of digits, `acc` read so far. -/
def parseDigits : List Char → Nat → Option Nat
  | [], acc => some acc
  | c :: cs, acc =>
    match digitValue c with
    | some d => parseDigits cs (10 * acc + d)
    | none => none

/-- `digit { digit }`: at least one digit (rule R192). -/
def parseNatural : List Char → Option Nat
  | [] => none
  | c :: cs => parseDigits (c :: cs) 0

/-- `integer = [ "-" ] digit { digit }`, any value. -/
def parseSigned : List Char → Option Int
  | [] => none
  | c :: cs =>
    if c = '-' then
      match parseNatural cs with
      | some n => some (-(n : Int))
      | none => none
    else
      match parseNatural (c :: cs) with
      | some n => some (n : Int)
      | none => none

/-- One integer of the program; "each integer must be an Int64" (rules R192, R193). -/
def parseInteger (cs : List Char) : Option Int :=
  match parseSigned cs with
  | some v => if Fits64 v then some v else none
  | none => none

/-- The fields between commas; an empty text has one empty field. -/
def splitCommas : List Char → List (List Char)
  | [] => [[]]
  | c :: cs =>
    if c = ',' then [] :: splitCommas cs
    else
      match splitCommas cs with
      | field :: fields => (c :: field) :: fields
      | [] => [[c]]

/-- Drop the optional `newline = LF or CR LF` at the end (rule R192). -/
def dropNewline : List Char → List Char
  | [] => []
  | [c] => if c = '\n' then [] else [c]
  | [c, d] => if c = '\r' ∧ d = '\n' then [] else if d = '\n' then [c] else [c, d]
  | c :: d :: e :: cs => c :: dropNewline (d :: e :: cs)

/-- Every field must be an integer. -/
def parseFields : List (List Char) → Option (List Int)
  | [] => some []
  | field :: fields =>
    match parseInteger field, parseFields fields with
    | some v, some vs => some (v :: vs)
    | _, _ => none

/-- The program of a text; `none` is ParseError (rules R172, R192, R193). -/
def parseProgram (text : List Char) : Option (List Int) := parseFields (splitCommas (dropNewline text))

/-- Load a text: parse and `create`. A ParseError creates no instance (rule R193). -/
def loadText (cfg : Config) (text : List Char) : Host.Outcome State Fault Refusal :=
  match parseProgram text with
  | some program => create cfg program
  | none => .fault (.noInstance .parseError 0)

end Sys2Proof.Machine
end

