-- ==== Sys2Proof/Safety.lean ====
section
/-!
DEFINITION. What claims about the machine are stated in, each written from the spec beside the meanings and not through
them: the operand values and addresses as plain functions of the state (the abstract view of rule R36), the first failing
check of an instruction in the order of rules R65 and R174, the shapes of a completed and of a faulted instruction, the
invariant of rules R10 and R23, states that differ in LEN alone, and the grammar of program text (rule R192).
-/

namespace Sys2Proof.Machine

/-- `p_k`: the value of operand cell k (rule R60). -/
def rawCell (s : State) (k : Nat) : Int := s.mem.read (s.ip + k)

/-- The address an operand of mode m names: p, or `RB` + p (rules R54, R63). -/
def operandAddress (s : State) (k : Nat) (m : Mode) : Int :=
  match m with
  | .relative => s.rb + rawCell s k
  | _ => rawCell s k

/-- The value of operand k as a source (rule R54). -/
def sourceValue (s : State) (k : Nat) (m : Mode) : Int :=
  match m with
  | .immediate => rawCell s k
  | _ => s.mem.read (operandAddress s k m).toNat

/-- The address of operand k as a destination (rule R54). -/
def destinationAddress (s : State) (k : Nat) (m : Mode) : Nat := (operandAddress s k m).toNat

/-- Operand k of mode m resolves without a fault: its cell is below `MEM_CAP` and, unless it is immediate, its address is
an `Int64`, not negative and below `MEM_CAP` (rules R60 to R64; R195 (b), (c), (e)). -/
def OperandReaches (s : State) (k : Nat) (m : Mode) : Prop :=
  s.cfg.memCap.below (s.ip + k) = true ∧
    (m = .relative → Fits64 (operandAddress s k m)) ∧
    (m ≠ .immediate → 0 ≤ operandAddress s k m ∧ s.cfg.memCap.below (operandAddress s k m).toNat = true)

/-- A fault as rule R161 records it. -/
abbrev FaultRecord := Cause × Int

/-- The first of several checks that fails (rule R65: "The first check that fails decides `CAUSE`"). -/
def firstOf : List (Option FaultRecord) → Option FaultRecord
  | [] => none
  | some f :: _ => some f
  | none :: rest => firstOf rest

/-- A check: `f` when it fails. -/
def failing (fails : Bool) (f : FaultRecord) : Option FaultRecord := if fails then some f else none

/-- The checks of an operand that names an address, in the order of rule R65: the operand cell's MemoryExhausted,
ArithmeticOverflow of a relative address, NegativeAddress, MemoryExhausted of the addressed cell. -/
def addressFault (s : State) (w : Int) (k : Nat) (m : Mode) : Option FaultRecord :=
  firstOf
    [failing (!s.cfg.memCap.below (s.ip + k)) (.memoryExhausted, (s.ip + k : Nat)),
     failing (decide (m = .relative ∧ ¬ Fits64 (operandAddress s k m))) (.arithmeticOverflow, w),
     failing (decide (operandAddress s k m < 0)) (.negativeAddress, operandAddress s k m),
     failing (!s.cfg.memCap.below (operandAddress s k m).toNat) (.memoryExhausted, operandAddress s k m)]

/-- The first failing check of `ReadOperand(k)` (rules R55, R61, R65). -/
def sourceFault (s : State) (w : Int) (k : Nat) (m : Mode) : Option FaultRecord :=
  match m with
  | .invalid _ => some (.invalidMode, w)
  | .immediate => failing (!s.cfg.memCap.below (s.ip + k)) (.memoryExhausted, (s.ip + k : Nat))
  | .position => addressFault s w k .position
  | .relative => addressFault s w k .relative

/-- The first failing check of `WriteOperand(k)` (rules R55, R62, R65). -/
def destinationFault (s : State) (w : Int) (k : Nat) (m : Mode) : Option FaultRecord :=
  match m with
  | .invalid _ => some (.invalidMode, w)
  | .immediate => some (.immediateStore, w)
  | .position => addressFault s w k .position
  | .relative => addressFault s w k .relative

/-- LeftoverModeDigits (rule R59). -/
def leftoverFault (w : Int) (leftover : Nat) : Option FaultRecord :=
  failing (leftover != 0) (.leftoverModeDigits, w)

/-- ArithmeticOverflow of a result (rules R82, R168). -/
def overflowFault (w : Int) (r : Int) : Option FaultRecord := failing (decide (¬ Fits64 r)) (.arithmeticOverflow, w)

/-- NegativeJumpTarget of a taken jump (rules R100, R101, R167). -/
def targetFault (taken : Bool) (target : Int) : Option FaultRecord :=
  failing (taken && decide (target < 0)) (.negativeJumpTarget, target)

/-- The checks of a three-operand instruction before its own (rule R65, steps 3 and 4). -/
def threeOperandFaults (s : State) (w : Int) (s1 s2 d : Mode) (leftover : Nat) : List (Option FaultRecord) :=
  [sourceFault s w 1 s1, sourceFault s w 2 s2, destinationFault s w 3 d, leftoverFault w leftover]

/-- The checks of a jump before its own (rule R65, steps 3 and 4). -/
def jumpFaults (s : State) (w : Int) (c t : Mode) (leftover : Nat) : List (Option FaultRecord) :=
  [sourceFault s w 1 c, sourceFault s w 2 t, leftoverFault w leftover]

/-- The fault an instruction takes in a state, none where it completes or suspends: the first failing check in the order
of rules R65 and R174, its own checks last. -/
def firstFault (i : Instr) (s : State) : Option FaultRecord :=
  let w := encode i
  match i with
  | .add s1 s2 d rest =>
    firstOf (threeOperandFaults s w s1 s2 d rest ++ [overflowFault w (sourceValue s 1 s1 + sourceValue s 2 s2)])
  | .mul s1 s2 d rest =>
    firstOf (threeOperandFaults s w s1 s2 d rest ++ [overflowFault w (sourceValue s 1 s1 * sourceValue s 2 s2)])
  | .inp d rest => firstOf [destinationFault s w 1 d, leftoverFault w rest]
  | .out s1 rest => firstOf [sourceFault s w 1 s1, leftoverFault w rest]
  | .jt c t rest =>
    firstOf (jumpFaults s w c t rest ++ [targetFault (sourceValue s 1 c != 0) (sourceValue s 2 t)])
  | .jf c t rest =>
    firstOf (jumpFaults s w c t rest ++ [targetFault (sourceValue s 1 c == 0) (sourceValue s 2 t)])
  | .lt s1 s2 d rest => firstOf (threeOperandFaults s w s1 s2 d rest)
  | .eq s1 s2 d rest => firstOf (threeOperandFaults s w s1 s2 d rest)
  | .arb s1 rest =>
    firstOf [sourceFault s w 1 s1, leftoverFault w rest, overflowFault w (s.rb + sourceValue s 1 s1)]
  | .hlt rest => leftoverFault w rest

/-- The cell an instruction stores to when it completes; none where its form stores nothing (rules R10, R43). -/
def storeAddress (i : Instr) (s : State) : Option Nat :=
  match i with
  | .add _ _ d _ => some (destinationAddress s 3 d)
  | .mul _ _ d _ => some (destinationAddress s 3 d)
  | .inp d _ => some (destinationAddress s 1 d)
  | .out _ _ => none
  | .jt _ _ _ => none
  | .jf _ _ _ => none
  | .lt _ _ d _ => some (destinationAddress s 3 d)
  | .eq _ _ d _ => some (destinationAddress s 3 d)
  | .arb _ _ => none
  | .hlt _ => none

/-- The value an instruction stores when it completes; none where it stores nothing, an IN with an empty queue included
(rules R80, R81, R90, R110, R111). -/
def storedValue (i : Instr) (s : State) : Option Int :=
  match i with
  | .add s1 s2 _ _ => some (sourceValue s 1 s1 + sourceValue s 2 s2)
  | .mul s1 s2 _ _ => some (sourceValue s 1 s1 * sourceValue s 2 s2)
  | .inp _ _ => s.inq.head?
  | .out _ _ => none
  | .jt _ _ _ => none
  | .jf _ _ _ => none
  | .lt s1 s2 _ _ => some (if sourceValue s 1 s1 < sourceValue s 2 s2 then 1 else 0)
  | .eq s1 s2 _ _ => some (if sourceValue s 1 s1 = sourceValue s 2 s2 then 1 else 0)
  | .arb _ _ => none
  | .hlt _ => none

/-- The valid words of rule R57's table. -/
def validWords : List Int :=
  [1, 101, 201, 1001, 1101, 1201, 2001, 2101, 2201, 20001, 20101, 20201, 21001, 21101, 21201, 22001, 22101, 22201] ++
  [2, 102, 202, 1002, 1102, 1202, 2002, 2102, 2202, 20002, 20102, 20202, 21002, 21102, 21202, 22002, 22102, 22202] ++
  [3, 203] ++ [4, 104, 204] ++ [5, 105, 205, 1005, 1105, 1205, 2005, 2105, 2205] ++
  [6, 106, 206, 1006, 1106, 1206, 2006, 2106, 2206] ++
  [7, 107, 207, 1007, 1107, 1207, 2007, 2107, 2207, 20007, 20107, 20207, 21007, 21107, 21207, 22007, 22107, 22207] ++
  [8, 108, 208, 1008, 1108, 1208, 2008, 2108, 2208, 20008, 20108, 20208, 21008, 21108, 21208, 22008, 22108, 22208] ++
  [9, 109, 209] ++ [99]

/-- The two states agree on everything but LEN (rules R12, R36). -/
def SameButLen (s t : State) : Prop := t = { s with len := t.len }

/-- The instance that an instruction or a step leaves: its next state, or the faulted instance that its fault carries. -/
def stateAfter (x : Host.Outcome State Fault Refusal) : Option State :=
  match x with
  | .next t => some t
  | .fault (.faulted t) => some t
  | .fault (.noInstance _ _) => none
  | .refused _ => none

/-- The outcomes of two steps agree on everything but LEN. -/
def SameOutcomeButLen (x y : Host.Outcome State Fault Refusal) : Prop :=
  match x, y with
  | .next s, .next t => SameButLen s t
  | .fault (.faulted s), .fault (.faulted t) => SameButLen s t
  | .fault (.noInstance c i), .fault (.noInstance d j) => c = d ∧ i = j
  | .refused r, .refused q => r = q
  | _, _ => False

/-- `t` is `s` after reads only: LEN may have grown, nothing else changed (rule R32). -/
def OnlyGrown (s t : State) : Prop := SameButLen s t ∧ s.len ≤ t.len

/-- `t` is `s` with the fault entry of rule R175, possibly after reads: MEM, IP, RB, INQ and OUT as before. -/
def FaultEntry (s t : State) (cause : Cause) (info : Int) : Prop :=
  t = { s with len := t.len, status := .faulted, cause := cause, info := info } ∧ s.len ≤ t.len

/-- The outcome is the fault `cause` with `info`, distinct from a next state (rule R160), and the instance it carries is `s`
with that fault entry (rule R175). -/
def TakesFault (x : Host.Outcome State Fault Refusal) (s : State) (cause : Cause) (info : Int) : Prop :=
  ∃ t, x = .fault (.faulted t) ∧ FaultEntry s t cause info

/-- `t` is `s` after an instruction of `n` cells that stored v in cell a: every other cell reads as before, `IP` moved
past the instruction, everything else (LEN may have grown) is unchanged. -/
def StoredAt (s t : State) (a : Nat) (v : Int) (n : Nat) : Prop :=
  t = { s with mem := t.mem, len := t.len, ip := s.ip + n } ∧ s.len ≤ t.len ∧
    ∀ b, t.mem.read b = if b = a then v else s.mem.read b

/-- A `run` can start or is in progress, so the next step executes an instruction (rules R130, R133). -/
def State.CanRun (s : State) : Prop := s.status ≠ .halted ∧ s.status ≠ .faulted

/-- `t` is the state after exactly n steps from s, and STATUS was Running after every step before the last: a run of n
instructions (rules R130, R147). -/
def StepsTo : Nat → State → State → Prop
  | 0, s, t => t = s
  | n + 1, s, t => ∃ u, stateAfter (step s) = some u ∧ (n ≠ 0 → u.status = .running) ∧ StepsTo n u t

/-- `IP` ≤ max(`MEM_CAP`, 2^63−1) (rule R13). -/
def IpInRange (cap : Cap) (ip : Nat) : Prop :=
  match cap with
  | .limit n => ip ≤ max n 9223372036854775807
  | .infinite => True

/-- The invariant of an engine instance (rules R10, R13, R15, R18, R23). -/
structure State.Inv (s : State) : Prop where
  /-- Memory is in its canonical form. -/
  memCanonical : s.mem.wf
  /-- Every listed cell exists (rule R12). -/
  memBelowLen : ∀ c ∈ s.mem, c.1 < s.len
  /-- "Every cell … is an Int64" (rule R23). -/
  memFits : ∀ c ∈ s.mem, Fits64 c.2
  /-- `LEN` ≤ `MEM_CAP` (rule R23). -/
  lenInCap : s.cfg.memCap.holds s.len = true
  /-- The range of `IP` (rule R13). -/
  ipInRange : IpInRange s.cfg.memCap s.ip
  /-- "`RB` is an Int64" (rule R23). -/
  rbFits : Fits64 s.rb
  /-- "every queue entry is an Int64" (rule R23). -/
  inqFits : ∀ v ∈ s.inq, Fits64 v
  /-- The queue's capacity (rule R15). -/
  inqInCap : s.cfg.inqCap.holds s.inq.length = true
  /-- `OUT` is an Int64 (rule R10). -/
  outFits : Fits64 s.out
  /-- "`STATUS = Faulted` implies 1 ≤ `CAUSE` ≤ 11 …" (rule R23). -/
  faultedCause : s.status = .faulted → 1 ≤ s.cause.code ∧ s.cause.code ≤ 11
  /-- "… otherwise `CAUSE` = 0" (rule R23). -/
  soundCause : s.status ≠ .faulted → s.cause = .none

/-- An `integer` of the grammar of rule R192: an optional minus and digits, most significant first. -/
structure NumberText where
  minus : Bool
  digits : List (Fin 10)
  deriving DecidableEq, Repr

/-- The character of a digit. -/
def digitChar (d : Fin 10) : Char := Char.ofNat (48 + d.val)

/-- The characters of an integer. -/
def NumberText.chars (n : NumberText) : List Char :=
  if n.minus then '-' :: n.digits.map digitChar else n.digits.map digitChar

/-- The value of an integer's digits. -/
def NumberText.magnitude (n : NumberText) : Nat := n.digits.foldl (fun acc d => 10 * acc + d.val) 0

/-- The value of an integer. -/
def NumberText.value (n : NumberText) : Int := if n.minus then -(n.magnitude : Int) else (n.magnitude : Int)

/-- "digit { digit }" and "Each integer must be an `Int64`" (rule R192). -/
def NumberText.Legal (n : NumberText) : Prop := n.digits ≠ [] ∧ Fits64 n.value

/-- `integer { "," integer }` (rule R192). -/
def commaJoin : List NumberText → List Char
  | [] => []
  | [n] => n.chars
  | n :: rest => n.chars ++ ',' :: commaJoin rest

/-- `[ newline ]`: nothing, LF, or CR LF (rule R192). -/
def IsTerminator (cs : List Char) : Prop := cs = [] ∨ cs = ['\n'] ∨ cs = ['\r', '\n']

/-- `text` is a program of rule R192 with the values `vs`. -/
def IsProgramText (text : List Char) (vs : List Int) : Prop :=
  ∃ (ns : List NumberText) (terminator : List Char),
    ns ≠ [] ∧ (∀ n ∈ ns, n.Legal) ∧ IsTerminator terminator ∧
      text = commaJoin ns ++ terminator ∧ vs = ns.map NumberText.value

end Sys2Proof.Machine
end

