-- ==== Sys2Proof/Certificates/Slice0/Obligations.lean ====
section
/-!
DEFINITION. The statements for the provers, from the numbered rules of spec/. They hold in every state, for every value
of MEM_CAP and INQ_CAP. Instructions are given in every form: valid, with an invalid mode digit, with leftover digits. A
fault is an outcome of exec and step distinct from a next state (rule R160). That this outcome carries the instance, as
the fault entry of rule R175 leaves it, is the model's way to let the host go on with it (log 6, DEDUCED).
-/

open Sys2Proof Sys2Proof.Machine

/-! ### Encoding and decoding -/

/-- Decoding an encoded instruction gives it back, for every instruction whose modes are decimal digits, whatever is
left over above them; every valid instruction is one of these (rules R51, R53, R57). -/
def Obligations.DecodeOfEncodeIsTheInstruction : Prop :=
  (∀ i : Instr, i.encodable = true → decode (encode i) = .ok i) ∧
    ∀ i : Instr, i.wellFormed = true → i.encodable = true

/-- Encoding a decoded word gives the word back, so no digit of it is dropped (rules R51, R53). -/
def Obligations.EncodeOfDecodeIsTheWord : Prop :=
  ∀ (w : Int) (i : Instr), decode w = .ok i → encode i = w ∧ i.encodable = true

/-- R51 and R53: the opcode is w mod 100, the mode of operand k is digit k−1 of w div 100, and what is left over is w
div 100 without the operands' digits; a decoded word is not negative. -/
def Obligations.DecodeReadsTheDecimalDigits : Prop :=
  ∀ (w : Int) (i : Instr), decode w = .ok i →
    0 ≤ w ∧ (i.opcode : Int) = w % 100 ∧ i.modes.length = i.operandCount ∧
      (∀ (k : Nat) (m : Mode), i.modes[k]? = some m → (m.digit : Int) = w / 100 / 10 ^ k % 10) ∧
      (i.leftover : Int) = w / 100 / 10 ^ i.operandCount

/-- The words that decode to a valid instruction are exactly the words of R57's table. -/
def Obligations.ValidWordsAreTheTableOfR57 : Prop :=
  ∀ w : Int, (∃ i, decode w = .ok i ∧ i.wellFormed = true) ↔ w ∈ validWords

/-- R66: a step that fetches a word outside the table faults. (That a step between runs starts a `run` is log 5, that
the fault carries the faulted instance is log 6, both the model's.) -/
def Obligations.EveryOtherWordFaults : Prop :=
  ∀ s : State, s.CanRun → s.mem.read s.ip ∉ validWords →
    ∃ cause info, TakesFault (step s) s cause info

/-- R52, R58: a negative word and a word with an unknown opcode fault with IllegalOpcode and the word, before anything
else is looked at. (That a step between runs starts a `run` is log 5, that the fault carries the faulted instance is log
6, both the model's.) -/
def Obligations.IllegalWordRaisesIllegalOpcode : Prop :=
  ∀ s : State, s.CanRun → s.cfg.memCap.below s.ip = true →
    (s.mem.read s.ip < 0 ∨ s.mem.read s.ip % 100 ∉ ([1, 2, 3, 4, 5, 6, 7, 8, 9, 99] : List Int)) →
    TakesFault (step s) s .illegalOpcode (s.mem.read s.ip)

/-- A few words written out from the spec's encodings (decode vectors of 95_test_vectors.md, one per family). -/
def Obligations.SampleWordsDecode : Prop :=
  decode 21101 = .ok (.add .immediate .immediate .relative 0) ∧ decode 1002 = .ok (.mul .position .immediate .position 0) ∧
    decode 203 = .ok (.inp .relative 0) ∧ decode 104 = .ok (.out .immediate 0) ∧
    decode 1105 = .ok (.jt .immediate .immediate 0) ∧ decode 20107 = .ok (.lt .immediate .position .relative 0) ∧
    decode 109 = .ok (.arb .immediate 0) ∧ decode 99 = .ok (.hlt 0)

/-! ### Memory -/

/-- R32: a read below the capacity returns M(a) and leaves LEN = a + 1 if a was at or past LEN; nothing else changes.
Where no cell at or past LEN is listed (a clause of the invariant), a read there returns 0. At or past the capacity it
raises MemoryExhausted(a). -/
def Obligations.MemReadReturnsTheCellAndGrows : Prop :=
  ∀ (a : Nat) (s : State),
    (s.cfg.memCap.below a = true →
      memRead a s = .ok (s.mem.read a) { s with len := if s.len ≤ a then a + 1 else s.len }) ∧
    (s.cfg.memCap.below a = true → (∀ c ∈ s.mem, c.1 < s.len) → s.len ≤ a →
      memRead a s = .ok 0 { s with len := a + 1 }) ∧
    (s.cfg.memCap.below a = false → memRead a s = .trap .memoryExhausted a s)

/-- R33: a write below the capacity stores v at a and changes no other cell; LEN grows as for a read; nothing else
changes. Where no cell at or past LEN is listed (a clause of the invariant), every cell between the old end and a is
then 0. At or past the capacity it raises MemoryExhausted(a). -/
def Obligations.MemWriteStoresOneCell : Prop :=
  ∀ (a : Nat) (v : Int) (s : State),
    (s.cfg.memCap.below a = true →
      ∃ m : Memory, memWrite a v s = .ok () { s with mem := m, len := if s.len ≤ a then a + 1 else s.len } ∧
        (∀ b, m.read b = if b = a then v else s.mem.read b) ∧
        ((∀ c ∈ s.mem, c.1 < s.len) → ∀ b, s.len ≤ b → b < a → m.read b = 0)) ∧
    (s.cfg.memCap.below a = false → memWrite a v s = .trap .memoryExhausted a s)

/-- R35: an instruction fetch, an operand access, a `peek` and a `poke` at an address at or past MEM_CAP fault with
MemoryExhausted and the address and read or write nothing; with MEM_CAP = ∞ no address is at or past it. The host's two
are admitted on a Halted instance too (R134, R185). (That a step between runs starts a `run` is log 5, that the fault
carries the faulted instance is log 6, both the model's.) -/
def Obligations.AccessPastCapacityIsMemoryExhausted : Prop :=
  (∀ (a : Nat) (s : State), s.cfg.memCap.below a = false →
    memRead a s = .trap .memoryExhausted a s ∧ (∀ v, memWrite a v s = .trap .memoryExhausted a s) ∧
    checkCapacity a s = .trap .memoryExhausted a s ∧
    (s.CanRun → s.ip = a → ∃ t, step s = .fault (.faulted t) ∧ t.len = s.len ∧ FaultEntry s t .memoryExhausted a) ∧
    (s.status ≠ .running → s.status ≠ .faulted → ∀ (fuel : Nat),
      hostOp fuel (.peek a) s = .next (.faulted .memoryExhausted a, s.raise .memoryExhausted a) ∧
      ∀ v, Fits64 v →
        hostOp fuel (.poke a v) s = .next (.faulted .memoryExhausted a, s.raise .memoryExhausted a))) ∧
  ∀ a, Cap.below .infinite a = true

/-- R12, R36: LEN is never observed: from two states that differ in LEN alone, a step gives outcomes that differ in LEN
alone, whatever is executed. (The fault carries the faulted instance: log 6.) (That a step between runs starts a `run`
is the model's choice, log 5.) -/
def Obligations.LenIsUnobservableByAStep : Prop :=
  ∀ s t : State, SameButLen s t → SameOutcomeButLen (step s) (step t)

/-- A listed memory in canonical form is determined by what its cells read (so equal memories are equal data). -/
def Obligations.CanonicalMemoriesWithEqualCellsAreEqual : Prop :=
  ∀ m n : Memory, m.wf → n.wf → (∀ a, m.read a = n.read a) → m = n

/-! ### The instructions: completion, result and frame, and the fault each takes otherwise -/

/-- R80. (The fault carries the faulted instance: log 6.) -/
def Obligations.AddStoresTheExactSum : Prop :=
  ∀ (s1 s2 d : Mode) (leftover : Nat) (s : State),
    (firstFault (.add s1 s2 d leftover) s = none →
      ∃ t, exec (.add s1 s2 d leftover) s = .next t ∧
        StoredAt s t (destinationAddress s 3 d) (sourceValue s 1 s1 + sourceValue s 2 s2) 4) ∧
    ∀ cause info, firstFault (.add s1 s2 d leftover) s = some (cause, info) →
      TakesFault (exec (.add s1 s2 d leftover) s) s cause info

/-- R81. (The fault carries the faulted instance: log 6.) -/
def Obligations.MulStoresTheExactProduct : Prop :=
  ∀ (s1 s2 d : Mode) (leftover : Nat) (s : State),
    (firstFault (.mul s1 s2 d leftover) s = none →
      ∃ t, exec (.mul s1 s2 d leftover) s = .next t ∧
        StoredAt s t (destinationAddress s 3 d) (sourceValue s 1 s1 * sourceValue s 2 s2) 4) ∧
    ∀ cause info, firstFault (.mul s1 s2 d leftover) s = some (cause, info) →
      TakesFault (exec (.mul s1 s2 d leftover) s) s cause info

/-- R110. (The fault carries the faulted instance: log 6.) -/
def Obligations.LtStoresTheSignedComparison : Prop :=
  ∀ (s1 s2 d : Mode) (leftover : Nat) (s : State),
    (firstFault (.lt s1 s2 d leftover) s = none →
      ∃ t, exec (.lt s1 s2 d leftover) s = .next t ∧
        StoredAt s t (destinationAddress s 3 d) (if sourceValue s 1 s1 < sourceValue s 2 s2 then 1 else 0) 4) ∧
    ∀ cause info, firstFault (.lt s1 s2 d leftover) s = some (cause, info) →
      TakesFault (exec (.lt s1 s2 d leftover) s) s cause info

/-- R111. (The fault carries the faulted instance: log 6.) -/
def Obligations.EqStoresTheEquality : Prop :=
  ∀ (s1 s2 d : Mode) (leftover : Nat) (s : State),
    (firstFault (.eq s1 s2 d leftover) s = none →
      ∃ t, exec (.eq s1 s2 d leftover) s = .next t ∧
        StoredAt s t (destinationAddress s 3 d) (if sourceValue s 1 s1 = sourceValue s 2 s2 then 1 else 0) 4) ∧
    ∀ cause info, firstFault (.eq s1 s2 d leftover) s = some (cause, info) →
      TakesFault (exec (.eq s1 s2 d leftover) s) s cause info

/-- R90: with an input available it is removed from the front and stored; with an empty queue the run stops with
NeedInput and IP, RB, MEM and INQ are unchanged; the fault checks come before the empty-queue test. (The fault carries
the faulted instance: log 6.) -/
def Obligations.InTakesTheFrontInputOrSuspends : Prop :=
  ∀ (d : Mode) (leftover : Nat) (s : State),
    (firstFault (.inp d leftover) s = none → ∀ v rest, s.inq = v :: rest →
      ∃ t, exec (.inp d leftover) s = .next t ∧ t.inq = rest ∧
        StoredAt { s with inq := rest } t (destinationAddress s 1 d) v 2) ∧
    (firstFault (.inp d leftover) s = none → s.inq = [] →
      ∃ t, exec (.inp d leftover) s = .next t ∧ t = { s with len := t.len, status := .needInput } ∧ s.len ≤ t.len) ∧
    ∀ cause info, firstFault (.inp d leftover) s = some (cause, info) →
      TakesFault (exec (.inp d leftover) s) s cause info

/-- R91: OUT takes the operand, IP moves past the instruction, the run stops with HaveOutput; memory and everything else
unchanged. (The fault carries the faulted instance: log 6.) -/
def Obligations.OutEmitsTheOperand : Prop :=
  ∀ (s1 : Mode) (leftover : Nat) (s : State),
    (firstFault (.out s1 leftover) s = none →
      ∃ t, exec (.out s1 leftover) s = .next t ∧ s.len ≤ t.len ∧
        t = { s with len := t.len, out := sourceValue s 1 s1, ip := s.ip + 2, status := .haveOutput }) ∧
    ∀ cause info, firstFault (.out s1 leftover) s = some (cause, info) →
      TakesFault (exec (.out s1 leftover) s) s cause info

/-- R100: both operands are resolved; the jump is taken on any non-zero condition, negative ones included. (The fault
carries the faulted instance: log 6.) -/
def Obligations.JtJumpsOnNonZero : Prop :=
  ∀ (c t : Mode) (leftover : Nat) (s : State),
    (firstFault (.jt c t leftover) s = none →
      ∃ u, exec (.jt c t leftover) s = .next u ∧ s.len ≤ u.len ∧
        u = { s with len := u.len, ip := if sourceValue s 1 c ≠ 0 then (sourceValue s 2 t).toNat else s.ip + 3 }) ∧
    ∀ cause info, firstFault (.jt c t leftover) s = some (cause, info) →
      TakesFault (exec (.jt c t leftover) s) s cause info

/-- R101: the same with the condition inverted. (The fault carries the faulted instance: log 6.) -/
def Obligations.JfJumpsOnZero : Prop :=
  ∀ (c t : Mode) (leftover : Nat) (s : State),
    (firstFault (.jf c t leftover) s = none →
      ∃ u, exec (.jf c t leftover) s = .next u ∧ s.len ≤ u.len ∧
        u = { s with len := u.len, ip := if sourceValue s 1 c = 0 then (sourceValue s 2 t).toNat else s.ip + 3 }) ∧
    ∀ cause info, firstFault (.jf c t leftover) s = some (cause, info) →
      TakesFault (exec (.jf c t leftover) s) s cause info

/-- R120. (The fault carries the faulted instance: log 6.) -/
def Obligations.ArbAddsToTheRelativeBase : Prop :=
  ∀ (s1 : Mode) (leftover : Nat) (s : State),
    (firstFault (.arb s1 leftover) s = none →
      ∃ t, exec (.arb s1 leftover) s = .next t ∧ s.len ≤ t.len ∧
        t = { s with len := t.len, rb := s.rb + sourceValue s 1 s1, ip := s.ip + 2 }) ∧
    ∀ cause info, firstFault (.arb s1 leftover) s = some (cause, info) →
      TakesFault (exec (.arb s1 leftover) s) s cause info

/-- R125: HLT stops the run with Halted and touches nothing else; with any digit above the opcode it faults. (The fault
carries the faulted instance: log 6.) -/
def Obligations.HltHalts : Prop :=
  ∀ (leftover : Nat) (s : State),
    (leftover = 0 → exec (.hlt leftover) s = .next { s with status := .halted }) ∧
    (leftover ≠ 0 → exec (.hlt leftover) s =
      .fault (.faulted
      { s with status := .faulted, cause := .leftoverModeDigits, info := (encode (.hlt leftover) : Int) }))

/-- R195 (a) to (e), as rule R65's checks: an ADD or MUL, LT or EQ faults in no check exactly when it is valid, its
operand cells are below MEM_CAP, its addresses are in Int64, non-negative and below MEM_CAP, and its result is an Int64.
-/
def Obligations.ThreeOperandChecksPassExactlyWhen : Prop :=
  ∀ (s1 s2 d : Mode) (leftover : Nat) (s : State),
    let sound := s1.validSource = true ∧ s2.validSource = true ∧ d.validDestination = true ∧ leftover = 0 ∧
      OperandReaches s 1 s1 ∧ OperandReaches s 2 s2 ∧ OperandReaches s 3 d
    (firstFault (.add s1 s2 d leftover) s = none ↔
      sound ∧ Fits64 (sourceValue s 1 s1 + sourceValue s 2 s2)) ∧
    (firstFault (.mul s1 s2 d leftover) s = none ↔
      sound ∧ Fits64 (sourceValue s 1 s1 * sourceValue s 2 s2)) ∧
    (firstFault (.lt s1 s2 d leftover) s = none ↔ sound) ∧
    (firstFault (.eq s1 s2 d leftover) s = none ↔ sound)

/-- R195 (a) to (e) for the other instructions: IN, OUT, ARB (whose new base must be an Int64), JT and JF (whose target
must not be negative, only when the jump is taken) and HLT. -/
def Obligations.OtherChecksPassExactlyWhen : Prop :=
  ∀ (m n : Mode) (leftover : Nat) (s : State),
    let one := m.validSource = true ∧ leftover = 0 ∧ OperandReaches s 1 m
    let two := one ∧ n.validSource = true ∧ OperandReaches s 2 n
    (firstFault (.inp m leftover) s = none ↔ m.validDestination = true ∧ leftover = 0 ∧ OperandReaches s 1 m) ∧
    (firstFault (.out m leftover) s = none ↔ one) ∧
    (firstFault (.arb m leftover) s = none ↔ one ∧ Fits64 (s.rb + sourceValue s 1 m)) ∧
    (firstFault (.jt m n leftover) s = none ↔ two ∧ (sourceValue s 1 m ≠ 0 → 0 ≤ sourceValue s 2 n)) ∧
    (firstFault (.jf m n leftover) s = none ↔ two ∧ (sourceValue s 1 m = 0 → 0 ≤ sourceValue s 2 n)) ∧
    (firstFault (.hlt leftover) s = none ↔ leftover = 0)

/-! ### Whole-machine rules over all instructions -/

/-- R65, R160, R197: an instruction completes or suspends, which is a next state, exactly where no check fails; where
one fails it takes the fault of the first such check. It does nothing else: none waits and none is refused. (The fault
carries the faulted instance: log 6.) -/
def Obligations.AnInstructionCompletesExactlyWhenNoCheckFails : Prop :=
  ∀ (i : Instr) (s : State),
    ((∃ t, exec i s = .next t) ↔ firstFault i s = none) ∧
    ∀ cause info, TakesFault (exec i s) s cause info ↔ firstFault i s = some (cause, info)

/-- R175: an instruction that faults committed nothing: MEM, IP, RB, INQ, OUT (and the parameters) are as before, LEN
did not shrink, STATUS is Faulted, and CAUSE and INFO are those of the first failing check. (The fault carries the
faulted instance: log 6.) -/
def Obligations.FaultsArePrecise : Prop :=
  ∀ (i : Instr) (s : State) (f : Fault), exec i s = .fault f →
    ∃ t, f = .faulted t ∧ t.status = .faulted ∧ t.cfg = s.cfg ∧ t.mem = s.mem ∧ t.ip = s.ip ∧ t.rb = s.rb ∧
      t.inq = s.inq ∧ t.out = s.out ∧ s.len ≤ t.len ∧ firstFault i s = some (t.cause, t.info)

/-- R10, R43: an instruction changes no cell but the one it stores to, and a form that stores nothing or that faults
changes none. (The fault carries the faulted instance: log 6.) -/
def Obligations.OnlyTheDestinationCellChanges : Prop :=
  ∀ (i : Instr) (s t : State), stateAfter (exec i s) = some t →
    ∀ b, storeAddress i s ≠ some b → t.mem.read b = s.mem.read b

/-- R14, R120: only ARB writes RB, and it adds its operand; nothing that faults writes it. (The fault carries the
faulted instance: log 6.) -/
def Obligations.OnlyArbWritesTheRelativeBase : Prop :=
  ∀ (i : Instr) (s t : State), stateAfter (exec i s) = some t → t.rb ≠ s.rb →
    ∃ m, i = .arb m 0 ∧ t.rb = s.rb + sourceValue s 1 m

/-- R15, R92: only IN removes from INQ, one entry from the front, and stores that entry; nothing appends to it, and
nothing that faults changes it. (The fault carries the faulted instance: log 6.) -/
def Obligations.OnlyInConsumesInput : Prop :=
  ∀ (i : Instr) (s t : State), stateAfter (exec i s) = some t → t.inq ≠ s.inq →
    ∃ m v, i = .inp m 0 ∧ s.inq = v :: t.inq ∧ t.mem.read (destinationAddress s 1 m) = v

/-- R17: only OUT writes the output register, and then the run stops with HaveOutput; nothing that faults writes it.
(The fault carries the faulted instance: log 6.) -/
def Obligations.OnlyOutWritesTheOutputRegister : Prop :=
  ∀ (i : Instr) (s t : State), stateAfter (exec i s) = some t → t.out ≠ s.out →
    ∃ m, i = .out m 0 ∧ t.out = sourceValue s 1 m ∧ t.status = .haveOutput

/-- R133, row Running: what an instruction can do to STATUS: stay Running or stop in a next state, or fault. (The fault
carries the faulted instance: log 6.) -/
def Obligations.StatusChangesOnlyByTheStateMachine : Prop :=
  ∀ (i : Instr) (s : State), s.status = .running →
    (∃ t, exec i s = .next t ∧
      (t.status = .running ∨ (t.status = .needInput ∧ s.inq = [] ∧ ∃ m, i = .inp m 0) ∨
        (t.status = .haveOutput ∧ ∃ m, i = .out m 0) ∨ (t.status = .halted ∧ i = .hlt 0))) ∨
    ∃ t, exec i s = .fault (.faulted t) ∧ t.status = .faulted ∧ 1 ≤ t.cause.code ∧ t.cause.code ≤ 8

/-- R13, the table: IP after each instruction that does not fault. -/
def Obligations.InstructionPointerAfterEachInstruction : Prop :=
  ∀ (i : Instr) (s t : State), firstFault i s = none → exec i s = .next t →
    t.ip = match i with
      | .add _ _ _ _ | .mul _ _ _ _ | .lt _ _ _ _ | .eq _ _ _ _ => s.ip + 4
      | .inp _ _ => if s.inq = [] then s.ip else s.ip + 2
      | .out _ _ | .arb _ _ => s.ip + 2
      | .jt c m _ => if sourceValue s 1 c ≠ 0 then (sourceValue s 2 m).toNat else s.ip + 3
      | .jf c m _ => if sourceValue s 1 c = 0 then (sourceValue s 2 m).toNat else s.ip + 3
      | .hlt _ => s.ip

/-- R12, R7: LEN never decreases, and the parameters never change, in a step that faults too. (The fault carries the
faulted instance: log 6.) (That a step between runs starts a `run` is the model's choice, log 5.) -/
def Obligations.LenNeverDecreasesAndParametersStay : Prop :=
  ∀ s t : State, stateAfter (step s) = some t → s.len ≤ t.len ∧ t.cfg = s.cfg

/-! ### The step and the run -/

/-- R130, R131: when the word at IP decodes to i, a step in any STATUS that can run is exec of i with STATUS Running,
after the fetch (which may have grown LEN). (That a step between runs starts a `run` is the model's choice, log 5.) -/
def Obligations.StepRunsTheDecodedInstruction : Prop :=
  ∀ (s : State) (i : Instr), s.CanRun → s.cfg.memCap.below s.ip = true → decode (s.mem.read s.ip) = .ok i →
    step s = exec i { s with status := .running, len := max s.len (s.ip + 1) }

/-- R170: `run` on a halted instance executes nothing and faults with RunAfterHalt and IP; a step there is that `run`
(the model's choice, log 5). (The fault carries the faulted instance: log 6.) -/
def Obligations.RunAfterHaltFaults : Prop :=
  ∀ (s : State) (fuel : Nat), s.status = .halted →
    step s = .fault (.faulted { s with status := .faulted, cause := .runAfterHalt, info := (s.ip : Int) }) ∧
    hostOp fuel .run s = .next (.faulted .runAfterHalt s.ip,
      { s with status := .faulted, cause := .runAfterHalt, info := (s.ip : Int) })

/-- R160, R176: a faulted instance never resumes: a step of it is a fault again that leaves it as it is, and `run`
returns the same CAUSE and INFO and changes nothing. (That a step of it is a fault carrying it: log 6.) -/
def Obligations.FaultedNeverResumes : Prop :=
  ∀ (s : State) (fuel : Nat), s.status = .faulted →
    step s = .fault (.faulted s) ∧ hostOp fuel .run s = .next (.faulted s.cause s.info, s)

/-- R160, R197: a step ends in one of two distinct outcomes, from every state: a next state, which is never Faulted, or
a fault, whose instance is Faulted. Nothing waits and nothing is refused. (That a step between runs starts a `run` is
log 5, that the fault carries the faulted instance is log 6, both the model's.) -/
def Obligations.StepEndsInANextStateOrAFault : Prop :=
  ∀ s : State, (∃ t, step s = .next t ∧ t.status ≠ .faulted) ∨ ∃ t, step s = .fault (.faulted t) ∧ t.status = .faulted

/-- R15, R92: an input appended behind the queue changes nothing but the queue's end until an IN reaches it: a step that
does not starve does the same with more inputs queued, and leaves them queued, also when it faults. (The fault carries
the faulted instance: log 6.) (That a step between runs starts a `run` is the model's choice, log 5.) -/
def Obligations.LaterInputsDoNotChangeAStep : Prop :=
  ∀ (s t : State) (later : List Int),
    (step s = .next t → t.status ≠ .needInput →
      step { s with inq := s.inq ++ later } = .next { t with inq := t.inq ++ later }) ∧
    (step s = .fault (.faulted t) →
      step { s with inq := s.inq ++ later } = .fault (.faulted { t with inq := t.inq ++ later }))

/-- R23: every step keeps the invariant, from every state that meets it, and so does the entry of every fault. (The
fault carries the faulted instance: log 6.) (That a step between runs starts a `run` is the model's choice, log 5.) -/
def Obligations.StepKeepsTheInvariant : Prop :=
  ∀ s t : State, s.Inv → stateAfter (step s) = some t → t.Inv

/-- The model's choice (log 2, 4): `State.reset` is what `create` leaves for the empty program on the source-literal
machine, and the invariant holds there. -/
def Obligations.InvariantHoldsAtReset : Prop :=
  create Config.sourceLiteral [] = .next State.reset ∧ State.reset.Inv

/-- R23: every host operation keeps the invariant, and an instance it makes meets it too. -/
def Obligations.HostOperationsKeepTheInvariant : Prop :=
  ∀ (fuel : Nat) (op : HostOp) (s t : State) (r : HostResult), s.Inv → hostOp fuel op s = .next (r, t) →
    t.Inv ∧ ∀ fresh, r = .made fresh → fresh.Inv

/-- R45: a store is seen by the next fetch, whichever instruction made it (ADD, MUL, IN, LT, EQ) and whichever cell of
the next instruction it hit: a store into its word is what the next step decodes, or faults on with IllegalOpcode; a
store into an operand cell is that operand's raw value, and its value if it is immediate. (The fault carries the faulted
instance: log 6.) -/
def Obligations.StoreIsSeenByTheNextFetch : Prop :=
  ∀ (i : Instr) (s : State) (a : Nat) (v : Int), s.status = .running → firstFault i s = none →
    storeAddress i s = some a → storedValue i s = some v →
    ∃ t, exec i s = .next t ∧ t.status = .running ∧ t.ip = s.ip + i.operandCount + 1 ∧
      (a = t.ip → ∀ j, decode v = .ok j → step t = exec j { t with len := max t.len (t.ip + 1) }) ∧
      (a = t.ip → ∀ e, decode v = .error e → TakesFault (step t) t .illegalOpcode v) ∧
      ∀ k, a = t.ip + k → rawCell t k = v ∧ sourceValue t k .immediate = v

/-- R90, the source's test: an IN that suspended is retried by the next run after one `add_input`: it stores that value,
takes it off the queue and goes on, neither skipped nor duplicated. (That a step between runs starts a `run` is the
model's choice, log 5.) -/
def Obligations.SuspendedInputResumes : Prop :=
  ∀ (s : State) (d : Mode) (v : Int) (fuel : Nat), s.CanRun → s.inq = [] → s.cfg.memCap.below s.ip = true →
    decode (s.mem.read s.ip) = .ok (.inp d 0) → firstFault (.inp d 0) s = none → Fits64 v →
    s.cfg.inqCap.holds 1 = true →
    ∃ t u x, step s = .next t ∧ t.status = .needInput ∧ t.ip = s.ip ∧ t.mem = s.mem ∧ t.inq = [] ∧
      hostOp fuel (.addInput v) t = .next (.done, u) ∧ u.status = .needInput ∧ step u = .next x ∧
      x.status = .running ∧ x.ip = s.ip + 2 ∧ x.inq = [] ∧
      ∀ b, x.mem.read b = if b = destinationAddress s 1 d then v else s.mem.read b

/-- R130, R147: a run that ends within its fuel ends at its first stop: it takes one or more steps, at most its fuel,
STATUS is Running after every one but the last and no longer after the last, and the result is the one that STATUS
names. More fuel changes nothing. (Fuel and the result `unfinished` are the model's, log 10.) (The fault carries the
faulted instance: log 6.) (That a step between runs starts a `run` is the model's choice, log 5.) -/
def Obligations.RunEndsAtItsFirstStop : Prop :=
  ∀ (fuel : Nat) (s t : State) (r : HostResult), s.CanRun → s.status ≠ .running → hostOp fuel .run s = .next (r, t) →
    r ≠ .unfinished →
    (∃ n, 1 ≤ n ∧ n ≤ fuel ∧ StepsTo n s t) ∧ t.status ≠ .running ∧ r = t.runResult ∧
      ∀ more, fuel ≤ more → hostOp more .run s = .next (r, t)

/-- R130: a run is its first step followed by the rest of the loop; a step that leaves STATUS = Running does not end it,
and one that faults ends it with the result Faulted (R145). (The fault carries the faulted instance: log 6.) (That a
step between runs starts a `run` is the model's choice, log 5.) -/
def Obligations.RunIsItsFirstStepThenTheRest : Prop :=
  ∀ (fuel : Nat) (s t : State), s.CanRun → s.status ≠ .running → stateAfter (step s) = some t →
    hostOp (fuel + 1) .run s = if t.status = .running then runLoop fuel t else .next (t.runResult, t)

/-! ### The host operations -/

/-- R22, R190: what `create` leaves (that its memory is in canonical form is log 3, the model's), and MemoryExhausted
with no instance when the program does not fit (reported as a fault outcome: log 13, the model's). R134: to a host that
has an instance, in every STATUS it can observe, `create` gives the new one and leaves the existing one untouched; that
it leaves it untouched also when it makes none is the model's choice (log 19), and so is that each `create` names its
own MEM_CAP and INQ_CAP (log 20). -/
def Obligations.CreateLeavesTheResetState : Prop :=
  (∀ (cfg : Config) (program : List Int), (∀ v ∈ program, Fits64 v) → cfg.memCap.holds program.length = true →
    ∃ s, create cfg program = .next s ∧ (∀ k, s.mem.read k = program.getD k 0) ∧ s.mem.wf ∧
      s = { cfg := cfg, mem := s.mem, len := program.length, ip := 0, rb := 0, inq := [], status := .ready, out := 0,
            cause := .none, info := 0 } ∧
      ∀ (fuel : Nat) (existing : State), existing.status ≠ .running →
        hostOp fuel (.create cfg program) existing = .next (.made s, existing)) ∧
  (∀ (n : Nat) (inqCap : Cap) (program : List Int), (∀ v ∈ program, Fits64 v) → n < program.length →
    create (Config.mk (.limit n) inqCap) program = .fault (.noInstance .memoryExhausted n) ∧
    ∀ (fuel : Nat) (existing : State), existing.status ≠ .running →
      hostOp fuel (.create (Config.mk (.limit n) inqCap) program) existing =
        .next (.notMade (.noInstance .memoryExhausted n), existing))

/-- R136, R137: inputs are appended at the back in order and nothing else changes; past INQ_CAP the operation is
refused; `add_input` is the case of one value. -/
def Obligations.InputsAreAppendedAtTheBack : Prop :=
  ∀ (s : State) (vs : List Int) (v : Int) (fuel : Nat), s.status ≠ .running → s.status ≠ .faulted →
    (∀ x ∈ vs, Fits64 x) → Fits64 v →
    (s.cfg.inqCap.holds (s.inq.length + vs.length) = true →
      hostOp fuel (.withInputs vs) s = .next (.done, { s with inq := s.inq ++ vs })) ∧
    (s.cfg.inqCap.holds (s.inq.length + vs.length) = false →
      hostOp fuel (.withInputs vs) s = .refused .inputQueueFull) ∧
    (s.cfg.inqCap.holds (s.inq.length + 1) = true →
      hostOp fuel (.addInput v) s = .next (.done, { s with inq := s.inq ++ [v] })) ∧
    (s.cfg.inqCap.holds (s.inq.length + 1) = false → hostOp fuel (.addInput v) s = .refused .inputQueueFull)

/-- R138, R139: below the capacity `peek` returns the cell and changes no cell; `poke` stores one cell; neither changes
anything else but LEN; a `peek` after a `poke` returns the value. -/
def Obligations.PeekReadsAndPokeWritesOneCell : Prop :=
  ∀ (s : State) (a b : Nat) (v : Int) (fuel : Nat), s.status ≠ .running → s.status ≠ .faulted → Fits64 v →
    s.cfg.memCap.below a = true → s.cfg.memCap.below b = true →
    (∃ t, hostOp fuel (.peek a) s = .next (.value (s.mem.read a), t) ∧ OnlyGrown s t) ∧
    ∃ t u, hostOp fuel (.poke a v) s = .next (.done, t) ∧ t = { s with mem := t.mem, len := t.len } ∧ s.len ≤ t.len ∧
      hostOp fuel (.peek b) t = .next (.value (if b = a then v else s.mem.read b), u) ∧ OnlyGrown t u

/-- R45, R46: a `poke` of the cell at IP is seen by the next run, also while suspended. (That a step between runs starts
a `run` is the model's choice, log 5.) -/
def Obligations.PokeIsSeenByTheNextFetch : Prop :=
  ∀ (s : State) (w : Int) (i : Instr) (fuel : Nat), s.CanRun → s.status ≠ .running → Fits64 w →
    s.cfg.memCap.below s.ip = true → decode w = .ok i →
    ∃ t, hostOp fuel (.poke s.ip w) s = .next (.done, t) ∧ step t = exec i { t with status := .running }

/-- R140: a clone equals the original, which is unchanged. -/
def Obligations.CloneIsAnEqualInstance : Prop :=
  ∀ (s : State) (fuel : Nat), s.status ≠ .running → s.status ≠ .faulted → hostOp fuel .clone s = .next (.made s, s)

/-- R134, column Faulted: the five operations that are refused there. R142: no host operation happens while STATUS is
Running; that the model refuses every one there, `create` included, is its way to say so (log 11, DEDUCED). -/
def Obligations.FaultedInstanceRefusesTheHost : Prop :=
  ∀ (s : State) (fuel a : Nat) (v : Int) (vs : List Int) (op : HostOp),
    (s.status = .faulted →
      hostOp fuel (.addInput v) s = .refused .instanceFaulted ∧ hostOp fuel (.withInputs vs) s = .refused .instanceFaulted ∧
      hostOp fuel (.peek a) s = .refused .instanceFaulted ∧ hostOp fuel (.poke a v) s = .refused .instanceFaulted ∧
      hostOp fuel .clone s = .refused .instanceFaulted) ∧
    (s.status = .running → hostOp fuel op s = .refused .runInProgress)

/-- R133: no host operation but `run` and `collect_outputs` changes STATUS, except that a `peek` or `poke` past MEM_CAP
faults. -/
def Obligations.OnlyRunsChangeStatusFromOutside : Prop :=
  ∀ (fuel : Nat) (op : HostOp) (s t : State) (r : HostResult), op ≠ .run → op ≠ .collectOutputs →
    hostOp fuel op s = .next (r, t) →
    t.status = s.status ∨
      (t.status = .faulted ∧ t.cause = .memoryExhausted ∧
        ∃ a : Nat, s.cfg.memCap.below a = false ∧ t.info = a ∧ (op = .peek a ∨ ∃ v, op = .poke a v))

/-- R23 (7), R134: a halted or faulted instance is at its end: no host operation changes IP, RB, OUT or the parameters,
only a `poke` changes a cell, Faulted stays Faulted with its CAUSE and INFO, and Halted stays or becomes Faulted. -/
def Obligations.TerminalStatesStayTerminal : Prop :=
  ∀ (fuel : Nat) (op : HostOp) (s t : State) (r : HostResult), s.status = .halted ∨ s.status = .faulted →
    hostOp fuel op s = .next (r, t) →
    t.cfg = s.cfg ∧ t.ip = s.ip ∧ t.rb = s.rb ∧ t.out = s.out ∧ ((∀ a v, op ≠ .poke a v) → t.mem = s.mem) ∧
      (s.status = .faulted → t = s) ∧ (t.status = .halted ∨ t.status = .faulted)

/-- R141, R171: `collect_outputs` starts with no outputs (for at most `fuel` runs: log 10), and how it goes on after
each result of a run: outputs are collected in order, Halted returns them, NeedInput raises InputStarved with IP, a
fault is returned and the outputs are dropped. -/
def Obligations.CollectOutputsFollowsTheRuns : Prop :=
  ∀ (fuel runs : Nat) (outs : List Int) (s t : State),
    (s.status ≠ .running → hostOp fuel .collectOutputs s = collectLoop fuel fuel [] s) ∧
    (∀ v, hostRun fuel s = .next (.haveOutput v, t) →
      collectLoop fuel (runs + 1) outs s = collectLoop fuel runs (outs ++ [v]) t) ∧
    (hostRun fuel s = .next (.halted, t) → collectLoop fuel (runs + 1) outs s = .next (.outputs outs, t)) ∧
    (hostRun fuel s = .next (.needInput, t) → collectLoop fuel (runs + 1) outs s =
      .next (.faulted .inputStarved t.ip, { t with status := .faulted, cause := .inputStarved, info := (t.ip : Int) })) ∧
    (∀ cause info, hostRun fuel s = .next (.faulted cause info, t) →
      collectLoop fuel (runs + 1) outs s = .next (.faulted cause info, t))

/-! ### The program text -/

/-- R192: the loader reads exactly the texts of the grammar, and reads their values. -/
def Obligations.LoaderReadsExactlyTheGrammar : Prop :=
  ∀ (text : List Char) (vs : List Int), parseProgram text = some vs ↔ IsProgramText text vs

/-- R192: loading a program text is `create` of its values, and the i-th integer becomes MEM[i]. R172, R193: a text
outside the grammar is a ParseError and no instance is created (reported as a fault outcome: log 13, the model's). -/
def Obligations.LoadingIsCreateOfTheTextOrParseError : Prop :=
  ∀ (cfg : Config) (text : List Char),
    (∀ vs, IsProgramText text vs → loadText cfg text = create cfg vs ∧
      ∀ s, loadText cfg text = .next s → ∀ i, s.mem.read i = vs.getD i 0) ∧
    ((∀ vs, ¬ IsProgramText text vs) → loadText cfg text = .fault (.noInstance .parseError 0))
end

