-- ==== Sys2Proof/Laws/Memory.lean ====
section
/-!
SUPPORT. The laws of a memory: what a cell reads after a write, and that every memory operation keeps the canonical form.
They hold for every list, canonical or not, where nothing is said.
-/

namespace Sys2Proof.Machine

@[simp] theorem Memory.read_nil (a : Nat) : Memory.read [] a = 0 := rfl

theorem Memory.read_filter (m : Memory) (a b : Nat) :
    Memory.read (m.filter (fun c => c.1 ≠ a)) b = if b = a then 0 else Memory.read m b := by
  induction m with
  | nil => simp [Memory.read]
  | cons c rest ih =>
    obtain ⟨x, v⟩ := c
    by_cases hx : x = a
    · subst hx
      simp only [ne_eq, not_true_eq_false, decide_false, Bool.false_eq_true, not_false_eq_true, List.filter_cons_of_neg]
      rw [ih]
      by_cases hb : b = x <;> simp [hb, Memory.read]
    · rw [List.filter_cons_of_pos (by simpa using hx)]
      simp only [Memory.read]
      by_cases hb : b = x
      · subst hb; simp [hx]
      · simp only [hb, if_false]; exact ih

theorem Memory.read_insert_of_absent (m : Memory) (a b : Nat) (v : Int) (h : ∀ c ∈ m, c.1 ≠ a) :
    Memory.read (Memory.insert m a v) b = if b = a then v else Memory.read m b := by
  induction m with
  | nil => simp [Memory.insert, Memory.read]
  | cons c rest ih =>
    obtain ⟨x, u⟩ := c
    have hx : x ≠ a := h (x, u) (by simp)
    have ih := ih (fun c hc => h c (by simp [hc]))
    by_cases hlt : a < x
    · simp [Memory.insert, hlt, Memory.read]
    · simp only [Memory.insert, hlt, if_false, Memory.read]
      by_cases hb : b = x
      · subst hb; simp [hx]
      · simp [hb, ih]

/-- A read after a write: the value written at its address, the old value everywhere else (rule R36). -/
theorem Memory.read_write (m : Memory) (a b : Nat) (v : Int) :
    Memory.read (Memory.write m a v) b = if b = a then v else Memory.read m b := by
  unfold Memory.write
  by_cases hv : v = 0
  · simp only [hv, if_true]; exact Memory.read_filter m a b
  · simp only [hv, if_false]
    rw [Memory.read_insert_of_absent _ _ _ _ (by simp), Memory.read_filter]
    by_cases hb : b = a <;> simp [hb]

theorem Memory.mem_insert (m : Memory) (a : Nat) (v : Int) (c : Nat × Int) :
    c ∈ Memory.insert m a v ↔ c = (a, v) ∨ c ∈ m := by
  induction m with
  | nil => simp [Memory.insert]
  | cons d rest ih =>
    obtain ⟨x, u⟩ := d
    by_cases hlt : a < x
    · simp [Memory.insert, hlt]
    · simp only [Memory.insert, hlt, if_false, List.mem_cons, ih]; tauto

/-- What a write leaves listed. -/
theorem Memory.mem_write (m : Memory) (a : Nat) (v : Int) (c : Nat × Int) :
    c ∈ Memory.write m a v ↔ (c = (a, v) ∧ v ≠ 0) ∨ (c ∈ m ∧ c.1 ≠ a) := by
  unfold Memory.write
  by_cases hv : v = 0
  · simp [hv]
  · simp [hv, Memory.mem_insert]

theorem Memory.insert_pairwise (m : Memory) (a : Nat) (v : Int) (h : m.Pairwise (fun x y => x.1 < y.1))
    (ha : ∀ c ∈ m, c.1 ≠ a) : (Memory.insert m a v).Pairwise (fun x y => x.1 < y.1) := by
  induction m with
  | nil => simp [Memory.insert]
  | cons d rest ih =>
    obtain ⟨x, u⟩ := d
    have hx : x ≠ a := ha (x, u) (by simp)
    obtain ⟨hhead, htail⟩ := List.pairwise_cons.mp h
    by_cases hlt : a < x
    · simp only [Memory.insert, hlt, if_true]
      refine List.pairwise_cons.mpr ⟨fun c hc => ?_, h⟩
      rcases List.mem_cons.mp hc with rfl | hc
      · exact hlt
      · exact lt_trans hlt (hhead c hc)
    · simp only [Memory.insert, hlt, if_false]
      refine List.pairwise_cons.mpr ⟨fun c hc => ?_, ih htail (fun c hc => ha c (by simp [hc]))⟩
      rcases (Memory.mem_insert rest a v c).mp hc with rfl | hc
      · show x < a; omega
      · exact hhead c hc

/-- A write keeps the canonical form. -/
theorem Memory.wf_write (m : Memory) (a : Nat) (v : Int) (h : m.wf) : (Memory.write m a v).wf := by
  have hf : (m.filter (fun c => c.1 ≠ a)).Pairwise (fun x y => x.1 < y.1) := h.1.filter _
  constructor
  · unfold Memory.write
    split
    · exact hf
    · exact Memory.insert_pairwise _ _ _ hf (by simp)
  · intro c hc
    rcases (Memory.mem_write m a v c).mp hc with ⟨rfl, hv⟩ | ⟨hc, _⟩
    · exact hv
    · exact h.2 c hc

theorem Memory.ofCells_ge (i : Nat) (vs : List Int) : ∀ c ∈ Memory.ofCells i vs, i ≤ c.1 ∧ c.1 < i + vs.length := by
  induction vs generalizing i with
  | nil => simp [Memory.ofCells]
  | cons v vs ih =>
    intro c hc
    have step : ∀ d ∈ Memory.ofCells (i + 1) vs, i ≤ d.1 ∧ d.1 < i + (v :: vs).length := fun d hd => by
      have := ih (i + 1) d hd
      simp only [List.length_cons]; omega
    by_cases hv : v = 0
    · simp only [Memory.ofCells, hv, if_true] at hc; subst hv; exact step c hc
    · simp only [Memory.ofCells, hv, if_false, List.mem_cons] at hc
      rcases hc with rfl | hc
      · simp
      · exact step c hc

/-- A program's cells are in the canonical form. -/
theorem Memory.wf_ofCells (i : Nat) (vs : List Int) : (Memory.ofCells i vs).wf := by
  induction vs generalizing i with
  | nil => exact ⟨List.Pairwise.nil, by simp [Memory.ofCells]⟩
  | cons v vs ih =>
    by_cases hv : v = 0
    · simp only [Memory.ofCells, hv, if_true]; exact ih (i + 1)
    · simp only [Memory.ofCells, hv, if_false]
      refine ⟨List.pairwise_cons.mpr ⟨fun c hc => ?_, (ih (i + 1)).1⟩, fun c hc => ?_⟩
      · exact Nat.lt_of_lt_of_le (Nat.lt_succ_self i) (Memory.ofCells_ge (i + 1) vs c hc).1
      · rcases List.mem_cons.mp hc with rfl | hc
        · exact hv
        · exact (ih (i + 1)).2 c hc

theorem Memory.read_of_unlisted (m : Memory) (a : Nat) (h : ∀ c ∈ m, c.1 ≠ a) : m.read a = 0 := by
  induction m with
  | nil => rfl
  | cons d rest ih =>
    obtain ⟨x, u⟩ := d
    have : a ≠ x := fun e => h (x, u) (by simp) e.symm
    simp only [Memory.read, this, if_false]
    exact ih (fun c hc => h c (by simp [hc]))

/-- A cell reads 0 or the value of a listed pair. -/
theorem Memory.read_cases (m : Memory) (a : Nat) : m.read a = 0 ∨ (a, m.read a) ∈ m := by
  induction m with
  | nil => simp
  | cons d rest ih =>
    obtain ⟨x, u⟩ := d
    by_cases h : a = x
    · subst h; simp [Memory.read]
    · simp only [Memory.read, h, if_false]
      rcases ih with h0 | h1
      · exact .inl h0
      · exact .inr (by simp [h1])

/-- Every cell of a memory whose listed values are Int64 reads an Int64. -/
theorem Memory.read_fits (m : Memory) (h : ∀ c ∈ m, Fits64 c.2) (a : Nat) : Fits64 (m.read a) := by
  rcases Memory.read_cases m a with h0 | h1
  · rw [h0]; decide
  · exact h _ h1

/-- What a program's cells read. -/
theorem Memory.read_ofCells (i : Nat) (vs : List Int) (k : Nat) : (Memory.ofCells i vs).read (i + k) = vs.getD k 0 := by
  induction vs generalizing i k with
  | nil => simp [Memory.ofCells]
  | cons v vs ih =>
    cases k with
    | zero =>
      by_cases hv : v = 0
      · simp only [Memory.ofCells, hv, if_true, Nat.add_zero]
        rw [Memory.read_of_unlisted _ _ (fun c hc => by have := Memory.ofCells_ge (i + 1) vs c hc; omega)]
        simp
      · simp [Memory.ofCells, hv, Memory.read]
    | succ k =>
      have e : i + (k + 1) = i + 1 + k := by omega
      by_cases hv : v = 0
      · simp only [Memory.ofCells, hv, if_true, e]
        simpa using ih (i + 1) k
      · have hne : i + 1 + k ≠ i := by omega
        simp only [Memory.ofCells, hv, if_false, e, Memory.read, hne]
        simpa using ih (i + 1) k

end Sys2Proof.Machine
end

