-- ==== Sys2Proof/Laws/State.lean ====
section
/-!
SUPPORT. One lemma per field per named update of the state, so that no later proof unfolds a record update.
-/

namespace Sys2Proof.Machine

@[simp] theorem State.grow_cfg (s : State) (a : Nat) : (s.grow a).cfg = s.cfg := rfl
@[simp] theorem State.grow_mem (s : State) (a : Nat) : (s.grow a).mem = s.mem := rfl
@[simp] theorem State.grow_len (s : State) (a : Nat) : (s.grow a).len = max s.len (a + 1) := rfl
@[simp] theorem State.grow_ip (s : State) (a : Nat) : (s.grow a).ip = s.ip := rfl
@[simp] theorem State.grow_rb (s : State) (a : Nat) : (s.grow a).rb = s.rb := rfl
@[simp] theorem State.grow_inq (s : State) (a : Nat) : (s.grow a).inq = s.inq := rfl
@[simp] theorem State.grow_status (s : State) (a : Nat) : (s.grow a).status = s.status := rfl
@[simp] theorem State.grow_out (s : State) (a : Nat) : (s.grow a).out = s.out := rfl
@[simp] theorem State.grow_cause (s : State) (a : Nat) : (s.grow a).cause = s.cause := rfl
@[simp] theorem State.grow_info (s : State) (a : Nat) : (s.grow a).info = s.info := rfl

@[simp] theorem State.raise_cfg (s : State) (c : Cause) (i : Int) : (s.raise c i).cfg = s.cfg := rfl
@[simp] theorem State.raise_mem (s : State) (c : Cause) (i : Int) : (s.raise c i).mem = s.mem := rfl
@[simp] theorem State.raise_len (s : State) (c : Cause) (i : Int) : (s.raise c i).len = s.len := rfl
@[simp] theorem State.raise_ip (s : State) (c : Cause) (i : Int) : (s.raise c i).ip = s.ip := rfl
@[simp] theorem State.raise_rb (s : State) (c : Cause) (i : Int) : (s.raise c i).rb = s.rb := rfl
@[simp] theorem State.raise_inq (s : State) (c : Cause) (i : Int) : (s.raise c i).inq = s.inq := rfl
@[simp] theorem State.raise_status (s : State) (c : Cause) (i : Int) : (s.raise c i).status = .faulted := rfl
@[simp] theorem State.raise_out (s : State) (c : Cause) (i : Int) : (s.raise c i).out = s.out := rfl
@[simp] theorem State.raise_cause (s : State) (c : Cause) (i : Int) : (s.raise c i).cause = c := rfl
@[simp] theorem State.raise_info (s : State) (c : Cause) (i : Int) : (s.raise c i).info = i := rfl

@[simp] theorem State.stop_cfg (s : State) (st : Status) : (s.stop st).cfg = s.cfg := rfl
@[simp] theorem State.stop_mem (s : State) (st : Status) : (s.stop st).mem = s.mem := rfl
@[simp] theorem State.stop_len (s : State) (st : Status) : (s.stop st).len = s.len := rfl
@[simp] theorem State.stop_ip (s : State) (st : Status) : (s.stop st).ip = s.ip := rfl
@[simp] theorem State.stop_rb (s : State) (st : Status) : (s.stop st).rb = s.rb := rfl
@[simp] theorem State.stop_inq (s : State) (st : Status) : (s.stop st).inq = s.inq := rfl
@[simp] theorem State.stop_status (s : State) (st : Status) : (s.stop st).status = st := rfl
@[simp] theorem State.stop_out (s : State) (st : Status) : (s.stop st).out = s.out := rfl
@[simp] theorem State.stop_cause (s : State) (st : Status) : (s.stop st).cause = s.cause := rfl
@[simp] theorem State.stop_info (s : State) (st : Status) : (s.stop st).info = s.info := rfl

@[simp] theorem State.advance_cfg (s : State) (n : Nat) : (s.advance n).cfg = s.cfg := rfl
@[simp] theorem State.advance_mem (s : State) (n : Nat) : (s.advance n).mem = s.mem := rfl
@[simp] theorem State.advance_len (s : State) (n : Nat) : (s.advance n).len = s.len := rfl
@[simp] theorem State.advance_ip (s : State) (n : Nat) : (s.advance n).ip = s.ip + n := rfl
@[simp] theorem State.advance_rb (s : State) (n : Nat) : (s.advance n).rb = s.rb := rfl
@[simp] theorem State.advance_inq (s : State) (n : Nat) : (s.advance n).inq = s.inq := rfl
@[simp] theorem State.advance_status (s : State) (n : Nat) : (s.advance n).status = s.status := rfl
@[simp] theorem State.advance_out (s : State) (n : Nat) : (s.advance n).out = s.out := rfl
@[simp] theorem State.advance_cause (s : State) (n : Nat) : (s.advance n).cause = s.cause := rfl
@[simp] theorem State.advance_info (s : State) (n : Nat) : (s.advance n).info = s.info := rfl

@[simp] theorem State.startRun_cfg (s : State) : (s.startRun).cfg = s.cfg := rfl
@[simp] theorem State.startRun_mem (s : State) : (s.startRun).mem = s.mem := rfl
@[simp] theorem State.startRun_len (s : State) : (s.startRun).len = s.len := rfl
@[simp] theorem State.startRun_ip (s : State) : (s.startRun).ip = s.ip := rfl
@[simp] theorem State.startRun_rb (s : State) : (s.startRun).rb = s.rb := rfl
@[simp] theorem State.startRun_inq (s : State) : (s.startRun).inq = s.inq := rfl
@[simp] theorem State.startRun_status (s : State) : (s.startRun).status = .running := rfl
@[simp] theorem State.startRun_out (s : State) : (s.startRun).out = s.out := rfl
@[simp] theorem State.startRun_cause (s : State) : (s.startRun).cause = s.cause := rfl
@[simp] theorem State.startRun_info (s : State) : (s.startRun).info = s.info := rfl

end Sys2Proof.Machine
end

