-- ==== Sys2Proof/Laws/Ops.lean ====
section
/-!
SUPPORT. What each shared operation can do, said once: the access primitives, the checks, the sequencing of parts of an
instruction, and the order of checks in which claims are stated.
-/

namespace Sys2Proof.Machine

theorem OnlyGrown.refl (s : State) : OnlyGrown s s := ⟨rfl, le_refl _⟩

theorem OnlyGrown.trans {s t u : State} (h₁ : OnlyGrown s t) (h₂ : OnlyGrown t u) : OnlyGrown s u := by
  obtain ⟨e₁, l₁⟩ := h₁
  obtain ⟨e₂, l₂⟩ := h₂
  refine ⟨?_, le_trans l₁ l₂⟩
  unfold SameButLen at *
  rw [e₂, e₁]

theorem OnlyGrown.grow (s : State) (a : Nat) : OnlyGrown s (s.grow a) := ⟨rfl, le_max_left _ _⟩

/-- After reads only, the state is the old one with another LEN. -/
theorem OnlyGrown.eq_withLen {s t : State} (h : OnlyGrown s t) : ∃ n, s.len ≤ n ∧ t = { s with len := n } :=
  ⟨t.len, h.2, h.1⟩

@[simp] theorem Res.andThen_ok {α β : Type} (a : α) (s : State) (f : α → State → Res β) :
    (Res.ok a s).andThen f = f a s := rfl

@[simp] theorem Res.andThen_trap {α β : Type} (c : Cause) (i : Int) (s : State) (f : α → State → Res β) :
    (Res.trap c i s : Res α).andThen f = .trap c i s := rfl

/-- A sequence succeeds exactly when both parts do. -/
theorem Res.andThen_eq_ok {α β : Type} (r : Res α) (f : α → State → Res β) (b : β) (t : State) :
    r.andThen f = .ok b t ↔ ∃ a s, r = .ok a s ∧ f a s = .ok b t := by
  cases r <;> simp [Res.andThen]

@[simp] theorem Res.outcome_ok (u : Unit) (s : State) : (Res.ok u s).outcome = .next s := rfl

@[simp] theorem Res.outcome_trap (c : Cause) (i : Int) (s : State) :
    (Res.trap c i s : Res Unit).outcome = s.faultOut c i := rfl

@[simp] theorem stateAfter_next (s : State) : stateAfter (.next s) = some s := rfl

@[simp] theorem stateAfter_faulted (s : State) : stateAfter (.fault (.faulted s)) = some s := rfl

@[simp] theorem State.stateAfter_faultOut (s : State) (c : Cause) (i : Int) :
    stateAfter (s.faultOut c i) = some (s.raise c i) := rfl

/-- An instruction's outcome always leaves an instance: its next state or the faulted instance. -/
theorem Res.outcome_leaves (r : Res Unit) : ∃ t, stateAfter r.outcome = some t := by
  cases r <;> exact ⟨_, rfl⟩

/-- `MemRead`, below and past the capacity. -/
theorem memRead_eq (a : Nat) (s : State) :
    memRead a s = if s.cfg.memCap.below a then .ok (s.mem.read a) (s.grow a) else .trap .memoryExhausted a s := rfl

/-- `MemWrite`, below and past the capacity. -/
theorem memWrite_eq (a : Nat) (v : Int) (s : State) :
    memWrite a v s =
      if s.cfg.memCap.below a then .ok () { s.grow a with mem := s.mem.write a v } else .trap .memoryExhausted a s := rfl

@[simp] theorem firstOf_nil : firstOf [] = none := rfl
@[simp] theorem firstOf_some (f : FaultRecord) (l : List (Option FaultRecord)) : firstOf (some f :: l) = some f := rfl
@[simp] theorem firstOf_none (l : List (Option FaultRecord)) : firstOf (none :: l) = firstOf l := rfl

/-- No check of a list fails exactly when none of its members does. -/
theorem firstOf_eq_none (l : List (Option FaultRecord)) : firstOf l = none ↔ ∀ x ∈ l, x = none := by
  induction l with
  | nil => simp
  | cons x l ih => cases x <;> simp [ih]

@[simp] theorem failing_false (f : FaultRecord) : failing false f = none := rfl
@[simp] theorem failing_true (f : FaultRecord) : failing true f = some f := rfl

theorem failing_eq_none (b : Bool) (f : FaultRecord) : failing b f = none ↔ b = false := by
  cases b <;> simp

/-- A state after reads raises a fault: the fault entry of the state before them. -/
theorem OnlyGrown.faultEntry {s t : State} (h : OnlyGrown s t) (c : Cause) (i : Int) : FaultEntry s (t.raise c i) c i := by
  obtain ⟨n, hn, rfl⟩ := h.eq_withLen
  exact ⟨rfl, hn⟩

/-- A state after reads faults: the outcome is that fault of the state before them. -/
theorem OnlyGrown.takesFault {s t : State} (h : OnlyGrown s t) (c : Cause) (i : Int) : TakesFault (t.faultOut c i) s c i :=
  ⟨_, rfl, h.faultEntry c i⟩

end Sys2Proof.Machine
end

