-- ==== Sys2Proof/Laws/Operands.lean ====
section
/-!
SUPPORT. The operand resolvers against the plain functions of Safety.lean: each either succeeds with the operand's value or
address, after reads only, or traps with the first failing check, after reads only.
-/

namespace Sys2Proof.Machine

/-- What a resolver does: `fault` decides whether it traps, `value` is what it returns otherwise; LEN may grow. -/
def Resolves {α : Type} (r : Res α) (s : State) (fault : Option FaultRecord) (value : α) : Prop :=
  match fault with
  | none => ∃ t, r = .ok value t ∧ OnlyGrown s t
  | some (c, i) => ∃ t, r = .trap c i t ∧ OnlyGrown s t

theorem Resolves.ok {α : Type} {s t : State} (h : OnlyGrown s t) (v : α) : Resolves (.ok v t) s none v := ⟨t, rfl, h⟩

theorem Resolves.trap {α : Type} {s t : State} (h : OnlyGrown s t) (c : Cause) (i : Int) (v : α) :
    Resolves (.trap c i t) s (some (c, i)) v := ⟨t, rfl, h⟩

@[simp] theorem firstOf_skip (x : Option FaultRecord) (l : List (Option FaultRecord)) :
    firstOf (x :: none :: l) = firstOf (x :: l) := by cases x <;> rfl

/-- The checks of a position operand: there is no relative sum to check. -/
theorem addressFault_position (s : State) (w : Int) (k : Nat) :
    addressFault s w k .position = firstOf
      [failing (!s.cfg.memCap.below (s.ip + k)) (.memoryExhausted, (s.ip + k : Nat)),
       failing (decide (rawCell s k < 0)) (.negativeAddress, rawCell s k),
       failing (!s.cfg.memCap.below (rawCell s k).toNat) (.memoryExhausted, rawCell s k)] := by
  have h : ¬ (Mode.position = .relative ∧ ¬ Fits64 (operandAddress s k .position)) := fun h => by cases h.1
  rw [addressFault, decide_eq_false h, failing_false, firstOf_skip]; rfl

/-- The checks of a relative operand. -/
theorem addressFault_relative (s : State) (w : Int) (k : Nat) :
    addressFault s w k .relative = firstOf
      [failing (!s.cfg.memCap.below (s.ip + k)) (.memoryExhausted, (s.ip + k : Nat)),
       failing (decide (¬ Fits64 (s.rb + rawCell s k))) (.arithmeticOverflow, w),
       failing (decide (s.rb + rawCell s k < 0)) (.negativeAddress, s.rb + rawCell s k),
       failing (!s.cfg.memCap.below (s.rb + rawCell s k).toNat) (.memoryExhausted, s.rb + rawCell s k)] := by
  have h : decide (Mode.relative = .relative ∧ ¬ Fits64 (operandAddress s k .relative)) =
      decide (¬ Fits64 (s.rb + rawCell s k)) := decide_eq_decide.mpr ⟨fun h => h.2, fun h => ⟨rfl, h⟩⟩
  rw [addressFault, h]; rfl

theorem checkAddress_resolves (a : Int) {s t : State} (h : OnlyGrown s t) :
    Resolves (checkAddress a t) s (failing (decide (a < 0)) (.negativeAddress, a)) a.toNat := by
  unfold checkAddress
  by_cases ha : a < 0
  · simpa [ha] using Resolves.trap h _ _ _
  · simpa [ha] using Resolves.ok h _

theorem checkCapacity_resolves (a : Nat) {s t : State} (h : OnlyGrown s t) :
    Resolves (checkCapacity a t) s (failing (!s.cfg.memCap.below a) (.memoryExhausted, a)) a := by
  obtain ⟨n, hn, rfl⟩ := h.eq_withLen
  unfold checkCapacity
  cases hc : s.cfg.memCap.below a
  · simpa [hc] using Resolves.trap h _ _ _
  · simpa [hc] using Resolves.ok h _

theorem memRead_resolves (a : Nat) {s t : State} (h : OnlyGrown s t) :
    Resolves (memRead a t) s (failing (!s.cfg.memCap.below a) (.memoryExhausted, a)) (s.mem.read a) := by
  obtain ⟨n, hn, rfl⟩ := h.eq_withLen
  rw [memRead_eq]
  cases hc : s.cfg.memCap.below a
  · simpa [hc] using Resolves.trap h _ _ _
  · simpa [hc] using Resolves.ok (h.trans (OnlyGrown.grow _ a)) _

theorem relativeAddress_resolves (w p : Int) {s t : State} (h : OnlyGrown s t) :
    Resolves (relativeAddress w p t) s (failing (decide (¬ Fits64 (s.rb + p))) (.arithmeticOverflow, w)) (s.rb + p) := by
  obtain ⟨n, hn, rfl⟩ := h.eq_withLen
  unfold relativeAddress checkFits
  by_cases hf : Fits64 (s.rb + p)
  · rw [if_pos hf, decide_eq_false (not_not.mpr hf)]; exact Resolves.ok h _
  · rw [if_neg hf, decide_eq_true hf]; exact Resolves.trap h _ _ _

/-- Sequencing: the first fault decides; the second part starts after reads only. -/
theorem Resolves.andThen {α β : Type} {r : Res α} {s : State} {fault fault' : Option FaultRecord} {value : α} {value' : β}
    {f : α → State → Res β} (h : Resolves r s fault value)
    (h' : ∀ t, OnlyGrown s t → Resolves (f value t) s fault' value') :
    Resolves (r.andThen f) s (firstOf [fault, fault']) value' := by
  unfold Resolves at h
  cases fault with
  | some f => obtain ⟨t, rfl, g⟩ := h; exact Resolves.trap g _ _ _
  | none =>
    obtain ⟨t, rfl, g⟩ := h
    have := h' t g
    cases fault' <;> simpa using this

/-- Sequencing before a list of further checks. -/
theorem Resolves.andThen_list {α β : Type} {r : Res α} {s : State} {fault : Option FaultRecord}
    {faults : List (Option FaultRecord)} {value : α} {value' : β} {f : α → State → Res β} (h : Resolves r s fault value)
    (h' : ∀ t, OnlyGrown s t → Resolves (f value t) s (firstOf faults) value') :
    Resolves (r.andThen f) s (firstOf (fault :: faults)) value' := by
  have := h.andThen h'
  cases fault with
  | some f => simpa using this
  | none => cases hf : firstOf faults <;> simpa [hf] using this

/-- One resolver is a list of one check. -/
theorem Resolves.single {α : Type} {r : Res α} {s : State} {fault : Option FaultRecord} {value : α}
    (h : Resolves r s fault value) : Resolves r s (firstOf [fault]) value := by
  cases fault <;> simpa using h

/-- `ReadOperand(k)` is the plain value with the plain checks (rule R61). -/
theorem readOperand_resolves (w : Int) (k : Nat) (m : Mode) {s t : State} (h : OnlyGrown s t) :
    Resolves (readOperand w k m t) s (sourceFault s w k m) (sourceValue s k m) := by
  have raw : ∀ u, OnlyGrown s u → Resolves (rawOperand k u) s
      (failing (!s.cfg.memCap.below (s.ip + k)) (.memoryExhausted, (s.ip + k : Nat))) (rawCell s k) := fun u hu => by
    have : u.ip = s.ip := by obtain ⟨n, _, rfl⟩ := hu.eq_withLen; rfl
    unfold rawOperand; rw [this]; exact memRead_resolves _ hu
  have last : ∀ (a : Int) u, OnlyGrown s u → 0 ≤ a → Resolves (memRead a.toNat u) s
      (firstOf [failing (!s.cfg.memCap.below a.toNat) (.memoryExhausted, a)]) (s.mem.read a.toNat) := fun a u hu ha => by
    have := (memRead_resolves a.toNat hu).single
    rwa [Int.toNat_of_nonneg ha] at this
  have addr : ∀ (a : Int) u, OnlyGrown s u →
      Resolves ((checkAddress a u).andThen fun a s => memRead a s) s
        (firstOf [failing (decide (a < 0)) (.negativeAddress, a),
          failing (!s.cfg.memCap.below a.toNat) (.memoryExhausted, a)]) (s.mem.read a.toNat) := fun a u hu => by
    by_cases ha : a < 0
    · simpa [checkAddress, ha] using Resolves.trap hu Cause.negativeAddress a (s.mem.read a.toNat)
    · exact (checkAddress_resolves a hu).andThen_list fun v hv => last a v hv (by omega)
  cases m with
  | invalid d => exact Resolves.trap h _ _ _
  | immediate => exact raw t h
  | position =>
    have : Resolves ((rawOperand k t).andThen fun p s => (checkAddress p s).andThen fun a s => memRead a s) s
        (firstOf (_ :: _)) (s.mem.read (rawCell s k).toNat) :=
      (raw t h).andThen_list fun u hu => addr (rawCell s k) u hu
    rw [← addressFault_position s w k] at this
    exact this
  | relative =>
    have tail : ∀ u, OnlyGrown s u →
        Resolves ((relativeAddress w (rawCell s k) u).andThen fun a s => (checkAddress a s).andThen fun a s => memRead a s) s
          (firstOf (_ :: _)) (s.mem.read ((s.rb + rawCell s k : Int)).toNat) := fun u hu =>
      (relativeAddress_resolves w (rawCell s k) hu).andThen_list fun v hv => addr (s.rb + rawCell s k) v hv
    have : Resolves ((rawOperand k t).andThen fun p s => (relativeAddress w p s).andThen fun a s =>
        (checkAddress a s).andThen fun a s => memRead a s) s (firstOf (_ :: _)) (s.mem.read ((s.rb + rawCell s k : Int)).toNat) :=
      (raw t h).andThen_list tail
    rw [← addressFault_relative s w k] at this
    exact this

/-- `WriteOperand(k)` is the plain address with the plain checks (rule R62). -/
theorem writeOperand_resolves (w : Int) (k : Nat) (m : Mode) {s t : State} (h : OnlyGrown s t) :
    Resolves (writeOperand w k m t) s (destinationFault s w k m) (destinationAddress s k m) := by
  have raw : ∀ u, OnlyGrown s u → Resolves (rawOperand k u) s
      (failing (!s.cfg.memCap.below (s.ip + k)) (.memoryExhausted, (s.ip + k : Nat))) (rawCell s k) := fun u hu => by
    have : u.ip = s.ip := by obtain ⟨n, _, rfl⟩ := hu.eq_withLen; rfl
    unfold rawOperand; rw [this]; exact memRead_resolves _ hu
  have last : ∀ (a : Int) u, OnlyGrown s u → 0 ≤ a → Resolves (checkCapacity a.toNat u) s
      (firstOf [failing (!s.cfg.memCap.below a.toNat) (.memoryExhausted, a)]) a.toNat := fun a u hu ha => by
    have := (checkCapacity_resolves a.toNat hu).single
    rwa [Int.toNat_of_nonneg ha] at this
  have addr : ∀ (a : Int) u, OnlyGrown s u →
      Resolves ((checkAddress a u).andThen fun a s => checkCapacity a s) s
        (firstOf [failing (decide (a < 0)) (.negativeAddress, a),
          failing (!s.cfg.memCap.below a.toNat) (.memoryExhausted, a)]) a.toNat := fun a u hu => by
    by_cases ha : a < 0
    · simpa [checkAddress, ha] using Resolves.trap hu Cause.negativeAddress a a.toNat
    · exact (checkAddress_resolves a hu).andThen_list fun v hv => last a v hv (by omega)
  cases m with
  | invalid d => exact Resolves.trap h _ _ _
  | immediate => exact Resolves.trap h _ _ _
  | position =>
    have : Resolves ((rawOperand k t).andThen fun p s => (checkAddress p s).andThen fun a s => checkCapacity a s) s
        (firstOf (_ :: _)) ((rawCell s k).toNat) :=
      (raw t h).andThen_list fun u hu => addr (rawCell s k) u hu
    rw [← addressFault_position s w k] at this
    exact this
  | relative =>
    have tail : ∀ u, OnlyGrown s u →
        Resolves ((relativeAddress w (rawCell s k) u).andThen fun a s => (checkAddress a s).andThen fun a s => checkCapacity a s) s
          (firstOf (_ :: _)) (((s.rb + rawCell s k : Int)).toNat) := fun u hu =>
      (relativeAddress_resolves w (rawCell s k) hu).andThen_list fun v hv => addr (s.rb + rawCell s k) v hv
    have : Resolves ((rawOperand k t).andThen fun p s => (relativeAddress w p s).andThen fun a s =>
        (checkAddress a s).andThen fun a s => checkCapacity a s) s (firstOf (_ :: _)) (((s.rb + rawCell s k : Int)).toNat) :=
      (raw t h).andThen_list tail
    rw [← addressFault_relative s w k] at this
    exact this

/-- `CheckLeftover(n)` (rule R59). -/
theorem checkLeftover_resolves (w : Int) (rest : Nat) {s t : State} (h : OnlyGrown s t) :
    Resolves (checkLeftover w rest t) s (leftoverFault w rest) () := by
  unfold checkLeftover leftoverFault
  by_cases hr : rest = 0
  · subst hr; exact Resolves.ok h _
  · rw [if_neg hr, bne_iff_ne.mpr hr]; exact Resolves.trap h _ _ _

/-- The range check of a result (rule R82). -/
theorem checkFits_resolves (w : Int) (r : Int) {s t : State} (h : OnlyGrown s t) :
    Resolves (checkFits w r t) s (overflowFault w r) r := by
  unfold checkFits overflowFault
  by_cases hf : Fits64 r
  · rw [if_pos hf, decide_eq_false (not_not.mpr hf)]; exact Resolves.ok h _
  · rw [if_neg hf, decide_eq_true hf]; exact Resolves.trap h _ _ _

/-- A destination that resolves is below the capacity, so the store that follows does not fault. -/
theorem destination_below (s : State) (w : Int) (k : Nat) (m : Mode) (h : destinationFault s w k m = none) :
    s.cfg.memCap.below (destinationAddress s k m) = true := by
  cases m <;>
    simp_all [destinationFault, addressFault, firstOf_eq_none, failing_eq_none, destinationAddress]

end Sys2Proof.Machine
end

