-- ==== Sys2Proof/Laws/Instructions.lean ====
section
/-!
SUPPORT. What the shared bodies of the instructions can do: they end with their commit, or trap with the first failing
check after reads only (rules R65, R175).
-/

namespace Sys2Proof.Machine

/-- A body ends: with `done` of the state it leaves, or with the trap `fault` after reads only. -/
def Ends (r : Res Unit) (s : State) (fault : Option FaultRecord) (done : State → Prop) : Prop :=
  match fault with
  | none => ∃ t, r = .ok () t ∧ done t
  | some (c, i) => ∃ t, r = .trap c i t ∧ OnlyGrown s t

theorem Ends.commit {s t : State} {done : State → Prop} (h : done t) : Ends (.ok () t) s (firstOf []) done := ⟨t, rfl, h⟩

theorem Ends.trap {s t : State} {done : State → Prop} (h : OnlyGrown s t) (c : Cause) (i : Int) :
    Ends (.trap c i t) s (some (c, i)) done := ⟨t, rfl, h⟩

/-- A resolver before the rest of a body: its fault comes first; the rest runs only where it has none. -/
theorem Resolves.thenEnds {α : Type} {r : Res α} {s : State} {fault : Option FaultRecord}
    {faults : List (Option FaultRecord)} {value : α} {f : α → State → Res Unit} {done : State → Prop}
    (h : Resolves r s fault value)
    (h' : fault = none → ∀ t, OnlyGrown s t → Ends (f value t) s (firstOf faults) done) :
    Ends (r.andThen f) s (firstOf (fault :: faults)) done := by
  cases fault with
  | some f => obtain ⟨t, rfl, g⟩ := h; exact Ends.trap g _ _
  | none => obtain ⟨t, rfl, g⟩ := h; exact h' rfl t g

/-- The outcome of a body that ends: its commit, or the fault of the state before it. -/
theorem Ends.outcome {r : Res Unit} {s : State} {fault : Option FaultRecord} {done : State → Prop}
    (h : Ends r s fault done) :
    (fault = none → ∃ t, r.outcome = .next t ∧ done t) ∧
      ∀ c i, fault = some (c, i) → TakesFault r.outcome s c i := by
  cases fault with
  | none => obtain ⟨t, rfl, d⟩ := h; exact ⟨fun _ => ⟨t, rfl, d⟩, fun _ _ e => by cases e⟩
  | some f =>
    obtain ⟨t, rfl, g⟩ := h
    refine ⟨fun e => (by cases e), fun c i e => ?_⟩
    cases e
    exact g.takesFault _ _

/-- The store and advance at the end of an instruction, into a cell below the capacity (rule R43). -/
theorem memWrite_ends {s t : State} (h : OnlyGrown s t) (a : Nat) (v : Int) (n : Nat)
    (below : s.cfg.memCap.below a = true) :
    Ends ((memWrite a v t).andThen fun _ s => .ok () (s.advance n)) s (firstOf []) (fun u => StoredAt s u a v n) := by
  obtain ⟨k, hk, rfl⟩ := h.eq_withLen
  rw [memWrite_eq, if_pos (by exact below)]
  exact Ends.commit ⟨rfl, le_trans hk (le_max_left _ _), fun b => Memory.read_write _ _ b _⟩

/-- The three-operand body: the operand checks, the leftover check, the instruction's own check, then the one store. -/
theorem threeOperand_ends (w : Int) (s1 s2 d : Mode) (rest : Nat) (compute : Int → Int → State → Res Int) (s : State)
    (own : List (Option FaultRecord)) (r : Int)
    (hc : ∀ t dst, OnlyGrown s t → s.cfg.memCap.below dst = true →
      Ends ((compute (sourceValue s 1 s1) (sourceValue s 2 s2) t).andThen fun r s =>
        (memWrite dst r s).andThen fun _ s => .ok () (s.advance 4)) s (firstOf own) (fun u => StoredAt s u dst r 4)) :
    Ends (threeOperand w s1 s2 d rest compute s) s (firstOf (threeOperandFaults s w s1 s2 d rest ++ own))
      (fun t => StoredAt s t (destinationAddress s 3 d) r 4) :=
  (readOperand_resolves w 1 s1 (OnlyGrown.refl s)).thenEnds fun _ _ g1 =>
    (readOperand_resolves w 2 s2 g1).thenEnds fun _ _ g2 =>
      (writeOperand_resolves w 3 d g2).thenEnds fun hd _ g3 =>
        (checkLeftover_resolves w rest g3).thenEnds fun _ t g4 => hc t _ g4 (destination_below s w 3 d hd)

/-- The jump body: both operands, the leftover check, and the target's sign only when the jump is taken. -/
theorem jumpWhen_ends (w : Int) (c t : Mode) (rest : Nat) (taken : Int → Bool) (s : State) :
    Ends (jumpWhen w c t rest taken s) s
      (firstOf (jumpFaults s w c t rest ++ [targetFault (taken (sourceValue s 1 c)) (sourceValue s 2 t)]))
      (fun u => s.len ≤ u.len ∧ u = { s with
        len := u.len
        ip := if taken (sourceValue s 1 c) then (sourceValue s 2 t).toNat else s.ip + 3 }) := by
  refine (readOperand_resolves w 1 c (OnlyGrown.refl s)).thenEnds fun _ _ g1 =>
    (readOperand_resolves w 2 t g1).thenEnds fun _ _ g2 => (checkLeftover_resolves w rest g2).thenEnds fun _ u g => ?_
  obtain ⟨n, hn, rfl⟩ := g.eq_withLen
  unfold targetFault
  cases ht : taken (sourceValue s 1 c)
  · simp only [Bool.false_and, failing_false, Bool.false_eq_true, if_false]
    exact ⟨_, rfl, hn, rfl⟩
  · by_cases hneg : sourceValue s 2 t < 0
    · simp only [if_true, hneg, decide_true, Bool.and_true, failing_true]
      exact Ends.trap g _ _
    · simp only [if_true, hneg, decide_false, Bool.and_false, failing_false, if_false]
      exact ⟨_, rfl, hn, rfl⟩

/-- The commit of IN with an input available: that input is stored, and the queue loses its front. -/
theorem takeInput_of_cons {s t : State} (h : OnlyGrown s t) (dst : Nat) (v : Int) (rest : List Int)
    (hq : s.inq = v :: rest) (below : s.cfg.memCap.below dst = true) :
    ∃ u, takeInput dst t = .ok () u ∧ u.inq = rest ∧ StoredAt { s with inq := rest } u dst v 2 := by
  obtain ⟨n, hn, rfl⟩ := h.eq_withLen
  unfold takeInput
  simp only [hq]
  rw [memWrite_eq, if_pos (by exact below)]
  exact ⟨_, rfl, rfl, rfl, le_trans hn (le_max_left _ _), fun b => Memory.read_write _ _ b _⟩

/-- The commit of IN with an empty queue: the run stops and nothing is consumed or stored. -/
theorem takeInput_of_nil {s t : State} (h : OnlyGrown s t) (dst : Nat) (hq : s.inq = []) :
    takeInput dst t = .ok () (t.stop .needInput) := by
  obtain ⟨n, hn, rfl⟩ := h.eq_withLen
  unfold takeInput
  simp only [hq]

end Sys2Proof.Machine
end

