-- ==== Sys2Proof/Laws/PerInstr.lean ====
section
/-!
SUPPORT. Statements for all instructions, one lemma per constructor. Family `WordFits`: the word of a valid instruction is one
of 1 … 22299, so it has at most five decimal digits and is never the zero word of unwritten memory (rules R51, R57).
-/

namespace Sys2Proof.Laws.WordFits

open Sys2Proof

/-- The statement of the family. -/
def Statement (i : Instr) : Prop := i.wellFormed = true → 1 ≤ encode i ∧ encode i ≤ 22299

/-- A valid source's digit is at most 2. -/
theorem digit_of_source {m : Mode} (h : m.validSource = true) : m.digit ≤ 2 := by cases m <;> simp_all [Mode.validSource, Mode.digit]

/-- A valid destination's digit is at most 2. -/
theorem digit_of_destination {m : Mode} (h : m.validDestination = true) : m.digit ≤ 2 := by
  cases m <;> simp_all [Mode.validDestination, Mode.digit]

/-- The three-operand words. -/
theorem three {op : Nat} {a b d : Mode} (ho : 1 ≤ op ∧ op ≤ 99) (ha : a.validSource = true) (hb : b.validSource = true)
    (hd : d.validDestination = true) : 1 ≤ ((op + 100 * modeString [a, b, d] 0 : Nat) : Int) ∧
      ((op + 100 * modeString [a, b, d] 0 : Nat) : Int) ≤ 22299 := by
  have h1 := digit_of_source ha
  have h2 := digit_of_source hb
  have h3 := digit_of_destination hd
  simp only [modeString]
  omega

/-- The two-operand words. -/
theorem two {op : Nat} {a b : Mode} (ho : 1 ≤ op ∧ op ≤ 99) (ha : a.validSource = true) (hb : b.validSource = true) :
    1 ≤ ((op + 100 * modeString [a, b] 0 : Nat) : Int) ∧ ((op + 100 * modeString [a, b] 0 : Nat) : Int) ≤ 22299 := by
  have h1 := digit_of_source ha
  have h2 := digit_of_source hb
  simp only [modeString]
  omega

/-- The one-operand words. -/
theorem one {op : Nat} {a : Mode} (ho : 1 ≤ op ∧ op ≤ 99) (ha : a.digit ≤ 2) :
    1 ≤ ((op + 100 * modeString [a] 0 : Nat) : Int) ∧ ((op + 100 * modeString [a] 0 : Nat) : Int) ≤ 22299 := by
  simp only [modeString]
  omega

theorem add (s1 s2 d : Mode) (leftover : Nat) : Statement (.add s1 s2 d leftover) := by
  intro h
  simp only [Instr.wellFormed, Bool.and_eq_true, beq_iff_eq] at h
  obtain ⟨⟨⟨h1, h2⟩, h3⟩, rfl⟩ := h
  exact three (op := 1) (by decide) h1 h2 h3

theorem mul (s1 s2 d : Mode) (leftover : Nat) : Statement (.mul s1 s2 d leftover) := by
  intro h
  simp only [Instr.wellFormed, Bool.and_eq_true, beq_iff_eq] at h
  obtain ⟨⟨⟨h1, h2⟩, h3⟩, rfl⟩ := h
  exact three (op := 2) (by decide) h1 h2 h3

theorem inp (d : Mode) (leftover : Nat) : Statement (.inp d leftover) := by
  intro h
  simp only [Instr.wellFormed, Bool.and_eq_true, beq_iff_eq] at h
  obtain ⟨h1, rfl⟩ := h
  exact one (op := 3) (by decide) (digit_of_destination h1)

theorem out (s1 : Mode) (leftover : Nat) : Statement (.out s1 leftover) := by
  intro h
  simp only [Instr.wellFormed, Bool.and_eq_true, beq_iff_eq] at h
  obtain ⟨h1, rfl⟩ := h
  exact one (op := 4) (by decide) (digit_of_source h1)

theorem jt (c t : Mode) (leftover : Nat) : Statement (.jt c t leftover) := by
  intro h
  simp only [Instr.wellFormed, Bool.and_eq_true, beq_iff_eq] at h
  obtain ⟨⟨h1, h2⟩, rfl⟩ := h
  exact two (op := 5) (by decide) h1 h2

theorem jf (c t : Mode) (leftover : Nat) : Statement (.jf c t leftover) := by
  intro h
  simp only [Instr.wellFormed, Bool.and_eq_true, beq_iff_eq] at h
  obtain ⟨⟨h1, h2⟩, rfl⟩ := h
  exact two (op := 6) (by decide) h1 h2

theorem lt (s1 s2 d : Mode) (leftover : Nat) : Statement (.lt s1 s2 d leftover) := by
  intro h
  simp only [Instr.wellFormed, Bool.and_eq_true, beq_iff_eq] at h
  obtain ⟨⟨⟨h1, h2⟩, h3⟩, rfl⟩ := h
  exact three (op := 7) (by decide) h1 h2 h3

theorem eq (s1 s2 d : Mode) (leftover : Nat) : Statement (.eq s1 s2 d leftover) := by
  intro h
  simp only [Instr.wellFormed, Bool.and_eq_true, beq_iff_eq] at h
  obtain ⟨⟨⟨h1, h2⟩, h3⟩, rfl⟩ := h
  exact three (op := 8) (by decide) h1 h2 h3

theorem arb (s1 : Mode) (leftover : Nat) : Statement (.arb s1 leftover) := by
  intro h
  simp only [Instr.wellFormed, Bool.and_eq_true, beq_iff_eq] at h
  obtain ⟨h1, rfl⟩ := h
  exact one (op := 9) (by decide) (digit_of_source h1)

theorem hlt (leftover : Nat) : Statement (.hlt leftover) := by
  intro h
  simp only [Instr.wellFormed, beq_iff_eq] at h
  subst h
  decide

end Sys2Proof.Laws.WordFits
end

