-- ==== Sys2Proof/Machine/Assembler.lean ====
section
/-!
DEFINITION. The spec's notation for programs (rules R68, R69): statements, the cells they stand for, and how a statement
is written. Notation only; no rule of the machine depends on it (decision D25; log 17).
-/

namespace Sys2Proof.Machine

/-- A statement (rules R68, R69): an instruction with its raw operand cells, or the directive DATA. -/
inductive Stmt where
  | code (i : Instr) (raw : List Int)
  | data (values : List Int)
  deriving DecidableEq, Repr

/-- The cells of one statement (rules R50, R68, R69). -/
def Stmt.cells : Stmt → List Int
  | .code i raw => encodeCells i raw
  | .data values => values

/-- The cells of a program (rule R69: no labels, no expansions). -/
def assemble : List Stmt → List Int
  | [] => []
  | st :: rest => st.cells ++ assemble rest

/-- How one operand is written: `[n]`, `#n`, `[rb+n]`, `[rb-n]` (rule R68). An invalid mode has no notation. -/
def writeOperandText (m : Mode) (n : Int) : Option String :=
  match m with
  | .position => some ("[" ++ toString n ++ "]")
  | .immediate => some ("#" ++ toString n)
  | .relative => if n < 0 then some ("[rb" ++ toString n ++ "]") else some ("[rb+" ++ toString n ++ "]")
  | .invalid _ => none

/-- The operands in left-to-right order, separated by commas; none where the counts differ. -/
def operandTexts : List Mode → List Int → Option String
  | [], [] => some ""
  | [m], [n] => writeOperandText m n
  | m :: ms, n :: ns =>
    match writeOperandText m n, operandTexts ms ns with
    | some a, some b => some (a ++ ", " ++ b)
    | _, _ => none
  | _, _ => none

/-- DATA's values, separated by commas (rule R69). -/
def dataText : List Int → String
  | [] => ""
  | [v] => toString v
  | v :: vs => toString v ++ ", " ++ dataText vs

/-- How a statement is written (rules R68, R69); an ill-formed instruction has no notation. -/
def Stmt.text : Stmt → Option String
  | .code i raw =>
    if i.wellFormed then
      match i.modes with
      | [] => if raw = [] then some i.mnemonic else none
      | m :: ms =>
        match operandTexts (m :: ms) raw with
        | some operands => some (i.mnemonic ++ " " ++ operands)
        | none => none
    else none
  | .data values => some ("DATA " ++ dataText values)

end Sys2Proof.Machine
end

