-- ==== Sys2Proof/Tests/Slice0.lean ====
section
/-!
SUPPORT. The model's own tests: each a named theorem on a small state. Expected values are those of 95_test_vectors.md (the
vector's name stands at each) or written out by hand from the rule named. Theorems named witness_… show a state and operands
that meet the hypotheses of an obligation.
-/

namespace Sys2Proof.Tests

open Sys2Proof Sys2Proof.Machine

/-- An instance created from a program, on the source-literal machine. -/
def st (program : List Int) : State := State.initial Config.sourceLiteral program

/-- An instance created from a program, with MEM_CAP = n. -/
def capped (n : Nat) (program : List Int) : State := State.initial (Config.mk (.limit n) .infinite) program

/-- The same instance in the middle of a run. -/
def running (s : State) : State := s.startRun

/-- The instance a step leaves: its next state, or the instance that its fault carries. -/
def stepTo (s : State) : Option State := stateAfter (step s)

/-- The result and the next state of a host operation. -/
def opTo (fuel : Nat) (op : HostOp) (s : State) : Option (HostResult × State) :=
  match hostOp fuel op s with
  | .next x => some x
  | .fault _ => none
  | .refused _ => none

/-- Why a host operation is refused. -/
def opRefusal (fuel : Nat) (op : HostOp) (s : State) : Option Refusal :=
  match hostOp fuel op s with
  | .next _ => none
  | .fault _ => none
  | .refused r => some r

/-- Where a step leaves the run: STATUS, IP, CAUSE, INFO. -/
def stopOf (s : State) : Option (Status × Nat × Cause × Int) :=
  (stepTo s).map fun t => (t.status, t.ip, t.cause, t.info)

/-- What a step leaves in one cell, with STATUS and IP. -/
def cellOf (a : Nat) (s : State) : Option (Int × Status × Nat) :=
  (stepTo s).map fun t => (t.mem.read a, t.status, t.ip)

/-! ### WellFormed refuses each ill-formed form (rules R55, R59, R62) -/

theorem test_wf_invalid_first_source : (Instr.add (.invalid 3) .position .position 0).wellFormed = false := by decide
theorem test_wf_invalid_second_source : (Instr.jt .immediate (.invalid 9) 0).wellFormed = false := by decide
theorem test_wf_invalid_destination : (Instr.inp (.invalid 3) 0).wellFormed = false := by decide
theorem test_wf_immediate_destination : (Instr.eq .position .position .immediate 0).wellFormed = false := by decide
theorem test_wf_leftover : (Instr.out .immediate 1).wellFormed = false := by decide
theorem test_wf_leftover_halt : (Instr.hlt 1).wellFormed = false := by decide
theorem test_wf_accepts : (Instr.mul .relative .relative .relative 0).wellFormed = true := by decide

/-! ### Every constructor's decoding, from a word written out digit by digit (rules R51, R53, R54; part 2 of the vectors) -/

/-- m3 m2 m1 op = 2 1 1 01: ADD #, #, [rb]. -/
theorem test_decode_add : decode 21101 = .ok (.add .immediate .immediate .relative 0) := by decide
/-- T-DEC-2: m1 = 0, m2 = 1, m3 = 0. -/
theorem test_decode_mul : decode 1002 = .ok (.mul .position .immediate .position 0) := by decide
/-- T-DEC-14. -/
theorem test_decode_inp : decode 203 = .ok (.inp .relative 0) := by decide
/-- T-DEC-17. -/
theorem test_decode_out : decode 104 = .ok (.out .immediate 0) := by decide
/-- T-DEC-22: m1 = 0, m2 = 1. -/
theorem test_decode_jt : decode 1005 = .ok (.jt .position .immediate 0) := by decide
/-- m2 m1 op = 2 1 06: JF #, [rb]. -/
theorem test_decode_jf : decode 2106 = .ok (.jf .immediate .relative 0) := by decide
/-- T-DEC-27: m1 = 1, m2 = 0, m3 = 2. -/
theorem test_decode_lt : decode 20107 = .ok (.lt .immediate .position .relative 0) := by decide
/-- T-DEC-29: m1 = 0, m2 = 1, m3 = 0. -/
theorem test_decode_eq : decode 1008 = .ok (.eq .position .immediate .position 0) := by decide
/-- T-DEC-32. -/
theorem test_decode_arb : decode 209 = .ok (.arb .relative 0) := by decide
/-- T-DEC-34. -/
theorem test_decode_hlt : decode 99 = .ok (.hlt 0) := by decide
/-- T-DEC-48: an invalid digit 9 and six leftover digits. -/
theorem test_decode_leftover : decode 12345678901 = .ok (.add (.invalid 9) (.invalid 8) (.invalid 7) 123456) := by decide
/-- T-DEC-47. -/
theorem test_decode_negative : decode (-1101) = .error .negativeWord := by decide
/-- T-DEC-43: mode digits over an opcode 00. -/
theorem test_decode_opcode_zero : decode 100 = .error (.unknownOpcode 0) := by decide
/-- T-DEC-42. -/
theorem test_decode_opcode_98 : decode 98 = .error (.unknownOpcode 98) := by decide
/-- T-DEC-4, the other way. -/
theorem test_encode_mul : encode (.mul .immediate .immediate .relative 0) = 21102 := by decide
/-- T-DEC-36, the other way. -/
theorem test_encode_hlt_leftover : encode (.hlt 10) = 1099 := by decide

/-! ### The host's numbering of bits, and the first instruction after reset -/

theorem test_table_word : decodeTableWord 8 9 = some (.arb .position 0) := by decide
/-- A second cell behind the first is no part of the word. -/
theorem test_table_two_cells : decodeTableWord 128 (104 + 7 * 18446744073709551616) = some (.out .immediate 0) := by decide
theorem test_first_instruction_after_reset :
    (stepTo (State.reset.withFetchWord 128 (104 + 7 * 18446744073709551616))).map (fun t => (t.out, t.status, t.ip)) =
      some (7, .haveOutput, 2) := by decide
theorem test_halt_after_reset : stopOf (State.reset.withFetchWord 8 99) = some (.halted, 0, .none, 0) := by decide
/-- T-HLT-11: with nothing placed, the first step fetches a zero word. -/
theorem test_empty_program : stopOf State.reset = some (.faulted, 0, .illegalOpcode, 0) := by decide

/-! ### One step per instruction -/

/-- T-ADD-5. -/
theorem test_add_largest : cellOf 0 (st [1101, 9223372036854775806, 1, 0, 99]) =
    some (9223372036854775807, .running, 4) := by decide
/-- T-ADD-7. -/
theorem test_add_overflow : stopOf (st [1101, -9223372036854775808, -1, 0, 99]) =
    some (.faulted, 0, .arithmeticOverflow, 1101) := by decide
/-- T-MUL-6. -/
theorem test_mul_smallest : cellOf 0 (st [1102, 4294967296, -2147483648, 0, 99]) =
    some (-9223372036854775808, .running, 4) := by decide
/-- T-MUL-5. -/
theorem test_mul_overflow : stopOf (st [1102, -1, -9223372036854775808, 0, 99]) =
    some (.faulted, 0, .arithmeticOverflow, 1102) := by decide
/-- T-IN-11: the front of [5, 6] goes to cell 50, LEN becomes 51. -/
theorem test_inp_front : (stepTo { st [3, 50, 99] with inq := [5, 6] }).map (fun t => (t.mem.read 50, t.inq, t.len, t.ip)) =
    some (5, [6], 51, 2) := by decide
/-- T-IN-10: the address fault comes before the empty queue. -/
theorem test_inp_fault_first : stopOf (st [3, -1, 99]) = some (.faulted, 0, .negativeAddress, -1) := by decide
/-- T-OUT-3, its second step: RB = 3, operand −3. -/
theorem test_out_relative : (stepTo { st [109, 3, 204, -3, 99] with ip := 2, rb := 3 }).map
    (fun t => (t.out, t.status, t.ip)) = some (109, .haveOutput, 4) := by decide
/-- T-OUT-5. -/
theorem test_out_leftover : stopOf (st [1004, 0, 99]) = some (.faulted, 0, .leftoverModeDigits, 1004) := by decide
/-- T-JT-3: a negative condition is true. -/
theorem test_jt_negative_condition : stopOf (st [1105, -1, 7, 99]) = some (.running, 7, .none, 0) := by decide
/-- T-JT-6: an untaken jump resolves its target all the same. -/
theorem test_jt_resolves_target : stopOf (st [105, 0, -1, 99]) = some (.faulted, 0, .negativeAddress, -1) := by decide
/-- Rule R101: not taken on 1. -/
theorem test_jf_not_taken : stopOf (st [1106, 1, -1, 99]) = some (.running, 3, .none, 0) := by decide
/-- Rule R167: taken with a negative target. -/
theorem test_jf_negative_target : stopOf (st [1106, 0, -1, 99]) = some (.faulted, 0, .negativeJumpTarget, -1) := by decide
/-- Rule R110: −2^63 is less than every other value. -/
theorem test_lt_signed : cellOf 0 (st [1107, -9223372036854775808, 9223372036854775807, 0, 99]) =
    some (1, .running, 4) := by decide
/-- Rule R110: equal operands give 0. -/
theorem test_lt_strict : cellOf 0 (st [1107, 5, 5, 0, 99]) = some (0, .running, 4) := by decide
/-- T-EQ-5: # on operand 1, position on operand 2. -/
theorem test_eq_modes : cellOf 2 (st [108, 8, 2, 2, 99]) = some (0, .running, 4) := by decide
/-- T-EQ-3. -/
theorem test_eq_smallest : cellOf 0 (st [1108, -9223372036854775808, -9223372036854775808, 0, 99]) =
    some (1, .running, 4) := by decide
/-- T-ARB-5, its second step: the operand is read with the old base. -/
theorem test_arb_relative : (stepTo { st [109, 5, 209, 0, 99, -3] with ip := 2, rb := 5 }).map (fun t => (t.rb, t.ip)) =
    some (2, 4) := by decide
/-- T-ARB-2, its second step. -/
theorem test_arb_overflow : (stepTo { st [109, 0, 109, 1, 99] with ip := 2, rb := 9223372036854775807 }).map
    (fun t => (t.rb, t.ip, t.cause, t.info)) = some (9223372036854775807, 2, .arithmeticOverflow, 109) := by decide
/-- A fault is no next state (rule R160); a suspension is one. -/
theorem test_fault_is_no_next_state : step (st [199]) = .fault (.faulted ((running (st [199])).raise .leftoverModeDigits 199)) ∧
    step (st [3, 0]) = .next { st [3, 0] with len := 2, status := .needInput } := ⟨rfl, rfl⟩
/-- T-HLT-3. -/
theorem test_hlt_leftover : stopOf (st [199]) = some (.faulted, 0, .leftoverModeDigits, 199) := by decide

/-! ### The order of checks and the capacity -/

/-- T-ARB-10, its second step: the relative address overflows. -/
theorem test_relative_overflow :
    stopOf { st [109, 0, 204, -1, 99] with ip := 2, rb := -9223372036854775808 } =
      some (.faulted, 2, .arithmeticOverflow, 204) := by decide
/-- T-CAP-1, T-CAP-2: the cell at MEM_CAP and the cell before it. -/
theorem test_capacity_edge :
    stopOf (capped 1000 [1101, 1, 1, 1000, 99]) = some (.faulted, 0, .memoryExhausted, 1000) ∧
      (stepTo (capped 1000 [1101, 1, 1, 999, 99])).map (fun t => (t.mem.read 999, t.len)) = some (2, 1000) := by decide
/-- T-CAP-10, T-CAP-11: the mode check comes before the operand cell's read. -/
theorem test_capacity_order :
    stopOf (capped 3 [1101, 1, 1]) = some (.faulted, 0, .memoryExhausted, 3) ∧
      stopOf (capped 3 [11101, 1, 1]) = some (.faulted, 0, .immediateStore, 11101) := by decide
/-- T-CAP-4, its second step: the fetch at MEM_CAP. -/
theorem test_capacity_fetch : stopOf { capped 1000 [1105, 1, 1000] with ip := 1000 } =
    some (.faulted, 1000, .memoryExhausted, 1000) := by decide
/-- A read of an unwritten cell gives 0 and grows memory; a write of 0 leaves nothing listed (rules R32, R33). -/
theorem test_memory_canonical :
    (stepTo (st [1101, 0, 0, 0, 99])).map (fun t => t.mem) = some [(4, 99)] ∧
      (stepTo (st [4, 100, 99])).map (fun t => (t.out, t.len)) = some (0, 101) := by decide

/-! ### The host operations and the program text -/

/-- T-HOST-1, steps 2 and 5. -/
theorem test_run_to_halt_and_after :
    (opTo 5 .run (st [99])).map (fun x => (x.1, x.2.status)) = some (.halted, .halted) ∧
      (opTo 5 .run { st [99] with status := .halted }).map (fun x => (x.1, x.2.status, x.2.info)) =
        some (.faulted .runAfterHalt 0, .faulted, 0) := by decide
/-- T-HOST-4: the outputs collected so far are not returned. -/
theorem test_collect_starved :
    (opTo 9 .collectOutputs (st [104, 1, 3, 0, 99])).map (fun x => (x.1, x.2.ip, x.2.out)) =
      some (.faulted .inputStarved 2, 2, 1) := by decide
/-- T-HOST-2. -/
theorem test_collect_outputs :
    (opTo 9 .collectOutputs (st [104, 1, 104, 2, 99])).map (fun x => x.1) = some (.outputs [1, 2]) := by decide
/-- T-HOST-6, step 4: the retried word is fetched again. -/
theorem test_poke_at_pending_input :
    (opTo 9 .run { st [104, 0, 99] with status := .needInput }).map (fun x => (x.1, x.2.ip)) =
      some (.haveOutput 0, 2) := by decide
/-- T-HOST-11: the third input into a queue of two. -/
theorem test_queue_full :
    opRefusal 1 (.addInput 3) { State.initial (Config.mk .infinite (.limit 2)) [99] with inq := [1, 2] } =
      some .inputQueueFull := by decide
/-- Rules R134, R169: a create of two cells with MEM_CAP = 1 makes nothing and leaves the existing instance (log 19). -/
theorem test_create_beside :
    opTo 1 (.create (Config.mk (.limit 1) .infinite) [99, 0]) (st [99]) =
      some (.notMade (.noInstance .memoryExhausted 1), st [99]) ∧
    opTo 1 (.create (Config.mk (.limit 2) .infinite) [99, 0]) (st [99]) = some (.made (capped 2 [99, 0]), st [99]) := by
  decide
/-- T-HOST-12 c, f, e: what the loader reads. -/
theorem test_text_accepted :
    parseProgram ['9', '9', '\r', '\n'] = some [99] ∧ parseProgram ['0', '7', ',', '-', '0'] = some [7, 0] ∧
      parseProgram "-9223372036854775808,9223372036854775807\n".toList =
        some [-9223372036854775808, 9223372036854775807] := by decide
/-- T-HOST-12 h, j, n, p, q, s: what it does not. -/
theorem test_text_rejected :
    parseProgram ['\n'] = none ∧ parseProgram ['1', ','] = none ∧ parseProgram ['1', '\n', '\n'] = none ∧
      parseProgram "9223372036854775808".toList = none ∧ parseProgram ['-'] = none ∧ parseProgram ['1', '\r'] = none := by
  decide
/-- S2's listing: the notation and the cells it stands for (rule R68). -/
theorem test_notation :
    (Stmt.code (.mul .position .immediate .position 0) [4, 3, 4]).text = some "MUL [4], #3, [4]" ∧
      (Stmt.code (.out .relative 0) [-1]).text = some "OUT [rb-1]" ∧
      assemble [.code (.mul .position .immediate .position 0) [4, 3, 4], .data [33]] = [1002, 4, 3, 4, 33] := by decide
/-- The host's interface is this machine. -/
theorem test_core : Sys2Proof.core.reset = State.reset := rfl

/-! ### Witnesses: the hypotheses of the obligations can be met -/

theorem witness_encodable : (Instr.add (.invalid 9) .relative (.invalid 3) 123456).encodable = true ∧
    (Instr.hlt 92233720368547758).encodable = true ∧ (Instr.lt .position .immediate .relative 0).wellFormed = true := by decide
theorem witness_decoded : decode 9223372036854775807 = .ok (.lt (.invalid 8) (.invalid 5) (.invalid 7) 92233720368547) ∧
    decode 1 = .ok (.add .position .position .position 0) := by decide
theorem witness_valid_words : (22208 : Int) ∈ validWords ∧ (10001 : Int) ∉ validWords ∧ (199 : Int) ∉ validWords := by decide
theorem witness_other_word : (st [10001, 0, 0, 0]).CanRun ∧ (st [10001, 0, 0, 0]).mem.read (st [10001, 0, 0, 0]).ip ∉ validWords :=
  ⟨⟨by decide, by decide⟩, by decide⟩
theorem witness_illegal_word : (capped 1 [-1]).CanRun ∧ (capped 1 [98]).CanRun ∧
    (capped 1 [-1]).cfg.memCap.below (capped 1 [-1]).ip = true ∧ (capped 1 [98]).cfg.memCap.below (capped 1 [98]).ip = true ∧
    (capped 1 [-1]).mem.read 0 < 0 ∧
    (capped 1 [98]).mem.read 0 % 100 ∉ ([1, 2, 3, 4, 5, 6, 7, 8, 9, 99] : List Int) :=
  ⟨⟨by decide, by decide⟩, ⟨by decide, by decide⟩, by decide, by decide, by decide, by decide⟩
theorem witness_capacity : (capped 3 [99]).cfg.memCap.below 2 = true ∧ (capped 3 [99]).cfg.memCap.below 3 = false ∧
    (st [99]).cfg.memCap.below 3 = true := by decide
/-- Reads and writes at cell 2 of an instance of one cell, whose cell 1 lies between. -/
theorem witness_past_len : (∀ c ∈ (capped 3 [99]).mem, c.1 < (capped 3 [99]).len) ∧ (capped 3 [99]).len ≤ 1 ∧ 1 < 2 ∧
    (capped 3 [99]).cfg.memCap.below 2 = true ∧ (capped 3 [99]).cfg.memCap.below 1 = true := by decide
/-- The host's peek and poke are admitted on a Halted instance. -/
theorem witness_past_capacity_halted : ({ capped 3 [99] with status := .halted } : State).status ≠ .running ∧
    ({ capped 3 [99] with status := .halted } : State).status ≠ .faulted ∧
    ({ capped 3 [99] with status := .halted } : State).cfg.memCap.below 3 = false := by decide
theorem witness_past_capacity : ({ capped 3 [99] with ip := 3 } : State).CanRun ∧
    ({ capped 3 [99] with ip := 3 } : State).status ≠ .running ∧
    ({ capped 3 [99] with ip := 3 } : State).cfg.memCap.below 3 = false ∧ Fits64 9223372036854775807 :=
  ⟨⟨by decide, by decide⟩, by decide, by decide, by decide⟩
theorem witness_same_but_len : SameButLen (st [99]) { st [99] with len := 7 } ∧ (st [99]).len = 1 := ⟨rfl, rfl⟩
theorem witness_canonical : Memory.wf [(0, 1), (5, -2)] := by decide
theorem witness_add : firstFault (.add .position .immediate .relative 0) (capped 4 [20101, 0, 5, 3]) = none ∧
    firstFault (.add .immediate .immediate .immediate 0) (st [11101, 1, 1, 0]) = some (.immediateStore, 11101) := by decide
theorem witness_mul : firstFault (.mul .immediate .immediate .position 0) (capped 4 [1102, 3037000499, 3037000499, 3]) = none ∧
    firstFault (.mul .immediate .immediate .position 0) (st [1102, 3037000500, 3037000500, 0]) =
      some (.arithmeticOverflow, 1102) := by decide
theorem witness_lt : firstFault (.lt .position .relative .position 0) (st [2007, 0, 0, 0]) = none ∧
    firstFault (.lt .position .position .position 1) (st [100007, 0, 0, 0]) = some (.leftoverModeDigits, 100007) := by decide
theorem witness_eq : firstFault (.eq .immediate .position .relative 0) (st [20108, 1, 0, 0]) = none ∧
    firstFault (.eq .position (.invalid 3) .position 0) (st [3008, 0, 0, 0]) = some (.invalidMode, 3008) := by decide
theorem witness_inp : firstFault (.inp .position 0) (st [3, 0]) = none ∧ (st [3, 0]).inq = [] ∧
    firstFault (.inp .relative 0) { st [203, 0] with inq := [7] } = none ∧
    firstFault (.inp .relative 0) (st [203, -1]) = some (.negativeAddress, -1) := by decide
theorem witness_out : firstFault (.out .position 0) (capped 2 [4, 1]) = none ∧
    firstFault (.out .position 0) (capped 2 [4, 2]) = some (.memoryExhausted, 2) := by decide
theorem witness_jt : firstFault (.jt .immediate .immediate 0) (st [1105, 1, 0]) = none ∧
    firstFault (.jt .immediate .immediate 0) (st [1105, 0, -1]) = none ∧
    firstFault (.jt .immediate .immediate 0) (st [1105, 1, -1]) = some (.negativeJumpTarget, -1) := by decide
theorem witness_jf : firstFault (.jf .immediate .immediate 0) (st [1106, 0, 0]) = none ∧
    firstFault (.jf .immediate .immediate 0) (st [1106, 1, -1]) = none ∧
    firstFault (.jf .immediate .immediate 0) (st [1106, 0, -1]) = some (.negativeJumpTarget, -1) := by decide
theorem witness_arb : firstFault (.arb .immediate 0) { st [109, 1] with rb := 9223372036854775806 } = none ∧
    firstFault (.arb .immediate 0) { st [109, 1] with rb := 9223372036854775807 } = some (.arithmeticOverflow, 109) := by
  decide
theorem witness_hlt : firstFault (.hlt 0) (st [99]) = none ∧ firstFault (.hlt 1) (st [199]) =
    some (.leftoverModeDigits, 199) := by decide
theorem witness_precise_fault : ∃ t, exec (.hlt 1) (running (st [199])) = .fault (.faulted t) ∧ t.status = .faulted :=
  ⟨_, rfl, rfl⟩
/-- Both directions of the two equivalences are met: one form completes, another faults. -/
theorem witness_completes_or_faults : firstFault (.hlt 0) (st [99]) = none ∧
    (∃ t, exec (.hlt 0) (st [99]) = .next t) ∧ firstFault (.hlt 1) (st [199]) = some (.leftoverModeDigits, 199) ∧
    TakesFault (exec (.hlt 1) (st [199])) (st [199]) .leftoverModeDigits 199 :=
  ⟨by decide, ⟨_, rfl⟩, by decide, _, rfl, rfl, le_refl _⟩
/-- A fault leaves an instance too, so the frame statements cover it: here after a read that grew memory. -/
theorem witness_fault_leaves : ∃ t, stateAfter (exec (.arb .position 1) (st [1009, 7])) = some t ∧ t.len = 8 ∧
    t.status = .faulted := ⟨_, rfl, rfl, rfl⟩
theorem witness_destination_only : ∃ t, stateAfter (exec (.add .immediate .immediate .position 0) (st [1101, 2, 3, 0])) = some t ∧
    storeAddress (.add .immediate .immediate .position 0) (st [1101, 2, 3, 0]) ≠ some 1 ∧
    storeAddress (.out .immediate 0) (st [104, 7]) ≠ some 0 := ⟨_, rfl, by decide, by decide⟩
theorem witness_rb_written : ∃ t, stateAfter (exec (.arb .immediate 0) (st [109, 5])) = some t ∧ t.rb ≠ (st [109, 5]).rb :=
  ⟨_, rfl, by decide⟩
theorem witness_inq_written : ∃ t, stateAfter (exec (.inp .position 0) { st [3, 0] with inq := [4] }) = some t ∧ t.inq ≠ [4] :=
  ⟨_, rfl, by decide⟩
theorem witness_out_written : ∃ t, stateAfter (exec (.out .immediate 0) (st [104, 7])) = some t ∧ t.out ≠ (st [104, 7]).out :=
  ⟨_, rfl, by decide⟩
theorem witness_status : (running (st [99])).status = .running ∧
    (∃ t, exec (.jt .immediate .immediate 0) (running (st [1105, 0, 0])) = .next t ∧ t.status = .running) ∧
    (∃ t, exec (.inp .position 0) (running (st [3, 0])) = .next t ∧ t.status = .needInput) ∧
    (∃ t, exec (.out .immediate 0) (running (st [104, 7])) = .next t ∧ t.status = .haveOutput) ∧
    (∃ t, exec (.hlt 0) (running (st [99])) = .next t ∧ t.status = .halted) ∧
    (∃ t, exec (.hlt 1) (running (st [199])) = .fault (.faulted t) ∧ t.status = .faulted) :=
  ⟨rfl, ⟨_, rfl, rfl⟩, ⟨_, rfl, rfl⟩, ⟨_, rfl, rfl⟩, ⟨_, rfl, rfl⟩, ⟨_, rfl, rfl⟩⟩
theorem witness_ip : ∃ t, firstFault (.out .immediate 0) (st [104, 7]) = none ∧
    exec (.out .immediate 0) (st [104, 7]) = .next t := ⟨_, by decide, rfl⟩
/-- Both clauses of the statement on later inputs, and the steps whose LEN is looked at. -/
theorem witness_step : (∃ t, step (st [104, 7]) = .next t ∧ t.status ≠ .needInput) ∧
    (∃ t, step (st [0]) = .fault (.faulted t)) ∧ (∃ t, stateAfter (step (st [104, 7])) = some t) ∧
    ∃ t, stateAfter (step (st [0])) = some t := ⟨⟨_, rfl, by decide⟩, ⟨_, rfl⟩, ⟨_, rfl⟩, ⟨_, rfl⟩⟩
theorem witness_step_decoded : ({ capped 1 [99] with status := .needInput } : State).CanRun ∧
    ({ capped 1 [99] with status := .needInput } : State).cfg.memCap.below 0 = true ∧
    decode (({ capped 1 [99] with status := .needInput } : State).mem.read 0) = .ok (.hlt 0) :=
  ⟨⟨by decide, by decide⟩, by decide, by decide⟩
theorem witness_halted : ({ st [99] with status := .halted } : State).status = .halted := rfl
theorem witness_faulted : ((st [0]).raise .illegalOpcode 0).status = .faulted := rfl
theorem witness_invariant : (capped 5 [104, 7, 0, -3]).Inv :=
  ⟨by decide, by decide, by decide, by decide, Nat.zero_le _, by decide, by decide, by decide,
    by decide, by decide, by decide⟩
theorem witness_invariant_step : (∃ t, stateAfter (step (capped 5 [104, 7, 0, -3])) = some t ∧ t.status = .haveOutput) ∧
    ∃ t, stateAfter (step { capped 5 [104, 7, 0, -3] with ip := 3 }) = some t ∧ t.status = .faulted :=
  ⟨⟨_, rfl, rfl⟩, _, rfl, rfl⟩
theorem witness_invariant_host : ∃ r t, hostOp 1 (.poke 4 9) (capped 5 [104, 7, 0, -3]) = .next (r, t) := ⟨_, _, rfl⟩
theorem witness_made : ∃ fresh t, hostOp 1 .clone (capped 5 [104, 7, 0, -3]) = .next (.made fresh, t) := ⟨_, _, rfl⟩
/-- T-ADD-9: 99 is stored into cell 4 and fetched next. -/
theorem witness_store_seen : (running (st [1101, 50, 49, 4, 0])).status = .running ∧
    firstFault (.add .immediate .immediate .position 0) (running (st [1101, 50, 49, 4, 0])) = none ∧
    storeAddress (.add .immediate .immediate .position 0) (running (st [1101, 50, 49, 4, 0])) = some 4 ∧
    storedValue (.add .immediate .immediate .position 0) (running (st [1101, 50, 49, 4, 0])) = some 99 ∧
    decode 99 = .ok (.hlt 0) := by decide
/-- EQ stores 0 into the next word, which decodes to nothing; a MUL's product is the next OUT's operand cell. -/
theorem witness_store_seen_otherwise :
    firstFault (.eq .immediate .immediate .position 0) (running (st [1108, 1, 2, 4, 99])) = none ∧
    storeAddress (.eq .immediate .immediate .position 0) (running (st [1108, 1, 2, 4, 99])) = some 4 ∧
    storedValue (.eq .immediate .immediate .position 0) (running (st [1108, 1, 2, 4, 99])) = some 0 ∧
    decode 0 = .error (.unknownOpcode 0) ∧
    firstFault (.mul .immediate .immediate .position 0) (running (st [1102, 6, 7, 5, 104, 0])) = none ∧
    storeAddress (.mul .immediate .immediate .position 0) (running (st [1102, 6, 7, 5, 104, 0])) = some (0 + 4 + 1) ∧
    storedValue (.mul .immediate .immediate .position 0) (running (st [1102, 6, 7, 5, 104, 0])) = some 42 := by decide
/-- IN and LT store too: an input 99 into the next word, and the comparison's 1 into the next operand cell. -/
theorem witness_store_seen_inp_lt :
    firstFault (.inp .position 0) (running { st [3, 2, 0] with inq := [99] }) = none ∧
    storeAddress (.inp .position 0) (running { st [3, 2, 0] with inq := [99] }) = some 2 ∧
    storedValue (.inp .position 0) (running { st [3, 2, 0] with inq := [99] }) = some 99 ∧
    firstFault (.lt .immediate .immediate .position 0) (running (st [1107, 1, 2, 5, 104, 0])) = none ∧
    storeAddress (.lt .immediate .immediate .position 0) (running (st [1107, 1, 2, 5, 104, 0])) = some 5 ∧
    storedValue (.lt .immediate .immediate .position 0) (running (st [1107, 1, 2, 5, 104, 0])) = some 1 := by decide
/-- T-IN-2. -/
theorem witness_suspended : (st [3, 0, 4, 0, 99]).CanRun ∧ (st [3, 0, 4, 0, 99]).inq = [] ∧
    (st [3, 0, 4, 0, 99]).cfg.memCap.below 0 = true ∧
    decode ((st [3, 0, 4, 0, 99]).mem.read 0) = .ok (.inp .position 0) ∧
    firstFault (.inp .position 0) (st [3, 0, 4, 0, 99]) = none ∧ Fits64 42 ∧
    (st [3, 0, 4, 0, 99]).cfg.inqCap.holds 1 = true :=
  ⟨⟨by decide, by decide⟩, rfl, by decide, by decide, by decide, by decide, by decide⟩
theorem witness_run_ends : ∃ t, (st [99]).CanRun ∧ (st [99]).status ≠ .running ∧
    hostOp 1 .run (st [99]) = .next (.halted, t) := ⟨_, ⟨by decide, by decide⟩, by decide, rfl⟩
theorem witness_run_first_step : (st [1105, 1, 0]).CanRun ∧ (st [1105, 1, 0]).status ≠ .running ∧
    (∃ t, stateAfter (step (st [1105, 1, 0])) = some t ∧ t.status = .running) ∧
    (∃ t, stateAfter (step (st [99])) = some t ∧ t.status = .halted) ∧
    ∃ t, stateAfter (step (st [0])) = some t ∧ t.status = .faulted :=
  ⟨⟨by decide, by decide⟩, by decide, ⟨_, rfl, rfl⟩, ⟨_, rfl, rfl⟩, ⟨_, rfl, rfl⟩⟩
theorem witness_create : (∀ v ∈ ([99, 1, 2] : List Int), Fits64 v) ∧
    (Cap.limit 3).holds ([99, 1, 2] : List Int).length = true ∧ 2 < ([99, 1, 2] : List Int).length ∧
    ({ st [3, 0] with status := .needInput } : State).status ≠ .running := by decide
/-- A queue that may hold two: two fit, a third does not. -/
theorem witness_inputs : (State.initial (Config.mk .infinite (.limit 2)) [99]).status ≠ .running ∧
    (State.initial (Config.mk .infinite (.limit 2)) [99]).status ≠ .faulted ∧ (∀ x ∈ ([1, 2] : List Int), Fits64 x) ∧
    Fits64 3 ∧ (State.initial (Config.mk .infinite (.limit 2)) [99]).cfg.inqCap.holds (0 + ([1, 2] : List Int).length) = true ∧
    (State.initial (Config.mk .infinite (.limit 2)) [99]).cfg.inqCap.holds (1 + ([1, 2] : List Int).length) = false ∧
    (State.initial (Config.mk .infinite (.limit 2)) [99]).cfg.inqCap.holds (1 + 1) = true ∧
    (State.initial (Config.mk .infinite (.limit 2)) [99]).cfg.inqCap.holds (2 + 1) = false := by decide
theorem witness_peek_poke : (capped 3 [99]).status ≠ .running ∧ (capped 3 [99]).status ≠ .faulted ∧
    Fits64 (-9223372036854775808) ∧ (capped 3 [99]).cfg.memCap.below 0 = true ∧ (capped 3 [99]).cfg.memCap.below 2 = true := by
  decide
theorem witness_poke_fetch : (st [3, 0, 99]).CanRun ∧ (st [3, 0, 99]).status ≠ .running ∧ Fits64 104 ∧
    (st [3, 0, 99]).cfg.memCap.below (st [3, 0, 99]).ip = true ∧ decode 104 = .ok (.out .immediate 0) :=
  ⟨⟨by decide, by decide⟩, by decide, by decide, by decide, by decide⟩
theorem witness_outside : ∃ r t, hostOp 1 (.peek 3) (capped 3 [99]) = .next (r, t) ∧ t.status = .faulted ∧
    (HostOp.peek 3) ≠ .run ∧ (HostOp.peek 3) ≠ .collectOutputs := ⟨_, _, rfl, rfl, by decide, by decide⟩
theorem witness_terminal : (∃ r t, hostOp 1 .run { st [99] with status := .halted } = .next (r, t)) ∧
    ∃ r t, hostOp 1 .run ((st [0]).raise .illegalOpcode 0) = .next (r, t) := ⟨⟨_, _, rfl⟩, ⟨_, _, rfl⟩⟩
theorem witness_collect : (∃ t, hostRun 1 (st [104, 7]) = .next (.haveOutput 7, t)) ∧
    (∃ t, hostRun 1 (st [99]) = .next (.halted, t)) ∧ (∃ t, hostRun 1 (st [3, 0]) = .next (.needInput, t)) ∧
    ∃ t, hostRun 1 (st [0]) = .next (.faulted .illegalOpcode 0, t) := ⟨⟨_, rfl⟩, ⟨_, rfl⟩, ⟨_, rfl⟩, ⟨_, rfl⟩⟩
theorem witness_program_text : IsProgramText ['7', ',', '-', '0', '\r', '\n'] [7, 0] :=
  ⟨[⟨false, [7]⟩, ⟨true, [0]⟩], ['\r', '\n'], by decide, by unfold NumberText.Legal; decide, .inr (.inr rfl), by decide, by decide⟩
theorem witness_text_loaded : ∃ s, loadText Config.sourceLiteral ['7', ',', '-', '0', '\r', '\n'] = .next s := ⟨_, rfl⟩
theorem witness_no_program_text : ∀ vs, ¬ IsProgramText [] vs := by
  rintro vs ⟨ns, terminator, hne, hl, _, ht, _⟩
  have hj : commaJoin ns = [] := (List.append_eq_nil_iff.1 ht.symm).1
  cases ns with
  | nil => exact hne rfl
  | cons n rest =>
    have hd : n.digits ≠ [] := (hl n (List.mem_cons_self ..)).1
    have hc : n.chars ≠ [] := by unfold NumberText.chars; split <;> simp [hd]
    cases rest with
    | nil => exact hc hj
    | cons m rest => exact hc (List.append_eq_nil_iff.1 hj).1

end Sys2Proof.Tests
end

section
/-!
PROOFS. The invariant of rule R23 through a step, with LEN and the parameters (rules R7, R12). Every part of an instruction
before its commit only lets LEN grow, and only up to an address below MEM_CAP (`GrownWithin`); it ends with such a state or
traps with one (`Res.Ensures`). The commit then changes the fields for which the rules of the first part below hold.
-/

namespace Sys2Proof

/-- Growth up to an address below the capacity stays within it. -/
theorem Cap.holds_max {c : Cap} {n a : Nat} (hn : c.holds n = true) (ha : c.below a = true) :
    c.holds (max n (a + 1)) = true := by
  cases c with
  | infinite => rfl
  | limit k => simp only [Cap.holds, Cap.below, decide_eq_true_eq] at *; omega

end Sys2Proof

namespace Sys2Proof.Machine

/-! ### The range of IP, and truth values -/

/-- The cell behind a usable one is in the range of IP (rule R13). -/
theorem IpInRange.succ_of_below {c : Cap} {a : Nat} (h : c.below a = true) : IpInRange c (a + 1) := by
  cases c with
  | infinite => trivial
  | limit k => simp only [Cap.below, decide_eq_true_eq, IpInRange] at *; omega

/-- An Int64 jump target is in the range of IP (rule R13). -/
theorem IpInRange.toNat_of_fits {v : Int} (h : Fits64 v) (c : Cap) : IpInRange c v.toNat := by
  cases c with
  | infinite => trivial
  | limit k => simp only [IpInRange]; omega

/-- A truth value is an Int64. -/
theorem fits64_truth (p : Bool) : Fits64 (truth p) := by cases p <;> decide

/-! ### The invariant under each update of the state -/

theorem State.Inv.withLen {s : State} (h : s.Inv) {n : Nat} (hn : s.len ≤ n) (hc : s.cfg.memCap.holds n = true) :
    ({ s with len := n } : State).Inv :=
  { h with memBelowLen := fun c hm => lt_of_lt_of_le (h.memBelowLen c hm) hn, lenInCap := hc }

theorem State.Inv.withIp {s : State} (h : s.Inv) {n : Nat} (hn : IpInRange s.cfg.memCap n) :
    ({ s with ip := n } : State).Inv :=
  { h with ipInRange := hn }

theorem State.Inv.withRb {s : State} (h : s.Inv) {v : Int} (hv : Fits64 v) : ({ s with rb := v } : State).Inv :=
  { h with rbFits := hv }

theorem State.Inv.withOut {s : State} (h : s.Inv) {v : Int} (hv : Fits64 v) : ({ s with out := v } : State).Inv :=
  { h with outFits := hv }

/-- The front of the queue is an Int64, and without it the invariant still holds. -/
theorem State.Inv.dequeue {s : State} (h : s.Inv) {v : Int} {rest : List Int} (hq : s.inq = v :: rest) :
    Fits64 v ∧ ({ s with inq := rest } : State).Inv := by
  have hfits := h.inqFits
  have hcap := h.inqInCap
  rw [hq] at hfits hcap
  refine ⟨hfits v (by simp), { h with inqFits := fun x hx => hfits x (by simp [hx]), inqInCap := ?_ }⟩
  show s.cfg.inqCap.holds rest.length = true
  revert hcap
  cases s.cfg.inqCap with
  | infinite => exact id
  | limit k => simp only [Cap.holds, List.length_cons, decide_eq_true_eq]; omega

/-- A store of an Int64 into a usable cell, with its growth (rule R33). -/
theorem State.Inv.store {s : State} (h : s.Inv) {a : Nat} {v : Int} (ha : s.cfg.memCap.below a = true) (hv : Fits64 v) :
    ({ s.grow a with mem := s.mem.write a v } : State).Inv := by
  have listed : ∀ c ∈ s.mem.write a v, c = (a, v) ∨ c ∈ s.mem := fun c hc =>
    ((Memory.mem_write s.mem a v c).mp hc).imp And.left And.left
  exact { h with
    memCanonical := Memory.wf_write _ _ _ h.memCanonical
    memBelowLen := fun c hc => by
      show c.1 < max s.len (a + 1)
      rcases listed c hc with rfl | hm
      · simp
      · exact lt_of_lt_of_le (h.memBelowLen c hm) (le_max_left _ _)
    memFits := fun c hc => by
      rcases listed c hc with rfl | hm
      · exact hv
      · exact h.memFits c hm
    lenInCap := Cap.holds_max h.lenInCap ha }

/-- A fault entry with a cause that rule R23 admits. -/
theorem State.Inv.raise {s : State} (h : s.Inv) {c : Cause} (hc : 1 ≤ c.code ∧ c.code ≤ 11) (i : Int) : (s.raise c i).Inv :=
  { h with faultedCause := fun _ => hc, soundCause := fun hn => absurd rfl hn }

/-- The state during a run: it meets the invariant and records no fault. -/
def State.Live (s : State) : Prop := s.Inv ∧ s.cause = .none

/-- A run of a live state stops in a status other than Faulted. -/
theorem State.Live.stop {s : State} (h : s.Live) {st : Status} (hst : st ≠ .faulted) : (s.stop st).Inv :=
  { h.1 with faultedCause := fun e => absurd e hst, soundCause := fun _ => h.2 }

theorem State.Inv.live_startRun {s : State} (h : s.Inv) (hs : s.status ≠ .faulted) : s.startRun.Live :=
  ⟨State.Live.stop ⟨h, h.soundCause hs⟩ (by decide), h.soundCause hs⟩

/-! ### Growth below the capacity, and what a step keeps -/

/-- `t` is `s` after reads of usable cells: LEN may have grown, and is within MEM_CAP if it was. -/
def GrownWithin (s t : State) : Prop :=
  OnlyGrown s t ∧ (s.cfg.memCap.holds s.len = true → s.cfg.memCap.holds t.len = true)

theorem GrownWithin.refl (s : State) : GrownWithin s s := ⟨OnlyGrown.refl s, id⟩

theorem GrownWithin.eq_withLen {s t : State} (h : GrownWithin s t) :
    ∃ n, s.len ≤ n ∧ (s.cfg.memCap.holds s.len = true → s.cfg.memCap.holds n = true) ∧ t = { s with len := n } :=
  ⟨t.len, h.1.2, h.2, h.1.1⟩

theorem GrownWithin.cfg_eq {s t : State} (h : GrownWithin s t) : t.cfg = s.cfg := by
  obtain ⟨n, -, -, rfl⟩ := h.eq_withLen; rfl

theorem GrownWithin.ip_eq {s t : State} (h : GrownWithin s t) : t.ip = s.ip := by
  obtain ⟨n, -, -, rfl⟩ := h.eq_withLen; rfl

theorem GrownWithin.grow {s t : State} (h : GrownWithin s t) {a : Nat} (ha : s.cfg.memCap.below a = true) :
    GrownWithin s (t.grow a) :=
  ⟨h.1.trans (OnlyGrown.grow t a), fun hs => Cap.holds_max (h.2 hs) ha⟩

theorem GrownWithin.live {s t : State} (h : GrownWithin s t) (hs : s.Live) : t.Live := by
  obtain ⟨n, hn, hcap, rfl⟩ := h.eq_withLen
  exact ⟨hs.1.withLen hn (hcap hs.1.lenInCap), hs.2⟩

/-- What an instruction started in `s` keeps in the state `t` it leaves: LEN does not decrease, the parameters stay, and
from a live state the invariant holds again. -/
structure Keeps (s t : State) : Prop where
  len_le : s.len ≤ t.len
  cfg_eq : t.cfg = s.cfg
  inv : s.Live → t.Inv

/-- Reads may come before. -/
theorem GrownWithin.keeps {s t u : State} (h : GrownWithin s t) (hu : Keeps t u) : Keeps s u :=
  ⟨le_trans h.1.2 hu.len_le, hu.cfg_eq.trans h.cfg_eq, fun hs => hu.inv (h.live hs)⟩

/-! ### The parts of an instruction -/

/-- A part of an instruction that started in `s` ends with `post`, or traps with a cause of rule R23 after reads of usable
cells only. -/
def Res.Ensures {α : Type} (r : Res α) (s : State) (post : α → State → Prop) : Prop :=
  match r with
  | .ok a t => post a t
  | .trap c _ t => GrownWithin s t ∧ 1 ≤ c.code ∧ c.code ≤ 11

theorem Res.Ensures.ok {α : Type} {a : α} {s t : State} {post : α → State → Prop} (h : post a t) :
    (Res.ok a t).Ensures s post := h

/-- Sequencing: what the first part ensures, the second part starts from. -/
theorem Res.Ensures.andThen {α β : Type} {r : Res α} {s : State} {post : α → State → Prop} {f : α → State → Res β}
    {post' : β → State → Prop} (h : r.Ensures s post) (h' : ∀ a t, post a t → (f a t).Ensures s post') :
    (r.andThen f).Ensures s post' := by
  cases r with
  | ok a t => exact h' a t h
  | trap c i t => exact h

theorem Res.Ensures.mono {α : Type} {r : Res α} {s : State} {post post' : α → State → Prop} (h : r.Ensures s post)
    (h' : ∀ a t, post a t → post' a t) : r.Ensures s post' := by
  cases r with
  | ok a t => exact h' a t h
  | trap c i t => exact h

/-- What an instruction leaves, when its commit and its trap keep what a step keeps. -/
theorem Res.Ensures.outcome_keeps {r : Res Unit} {s t : State} (h : r.Ensures s fun _ u => Keeps s u)
    (ht : stateAfter r.outcome = some t) : Keeps s t := by
  cases r with
  | ok _ u => cases ht; exact h
  | trap c i u =>
    obtain ⟨hg, hc⟩ := h
    cases ht
    exact hg.keeps ⟨le_rfl, rfl, fun hu => hu.1.raise hc i⟩

section Parts

variable {s t : State} (h : GrownWithin s t)
include h

theorem memRead_ensures (a : Nat) :
    (memRead a t).Ensures s fun v u => GrownWithin s u ∧ (s.Inv → Fits64 v) ∧ s.cfg.memCap.below a = true := by
  obtain ⟨n, -, -, rfl⟩ := h.eq_withLen
  rw [memRead_eq]
  split
  case isTrue ha => exact ⟨h.grow ha, fun hs => Memory.read_fits _ hs.memFits a, ha⟩
  case isFalse => exact ⟨h, by decide⟩

theorem rawOperand_ensures (k : Nat) :
    (rawOperand k t).Ensures s fun v u => GrownWithin s u ∧ (s.Inv → Fits64 v) ∧ s.cfg.memCap.below (s.ip + k) = true := by
  rw [rawOperand, h.ip_eq]
  exact memRead_ensures h _

theorem checkAddress_ensures (a : Int) : (checkAddress a t).Ensures s fun _ u => GrownWithin s u := by
  unfold checkAddress
  split
  · exact ⟨h, by decide⟩
  · exact h

theorem checkCapacity_ensures (a : Nat) :
    (checkCapacity a t).Ensures s fun b u => GrownWithin s u ∧ s.cfg.memCap.below b = true := by
  rw [checkCapacity, h.cfg_eq]
  split
  case isTrue ha => exact ⟨h, ha⟩
  case isFalse => exact ⟨h, by decide⟩

theorem checkFits_ensures (w r : Int) : (checkFits w r t).Ensures s fun v u => GrownWithin s u ∧ Fits64 v := by
  unfold checkFits
  split
  case isTrue hr => exact ⟨h, hr⟩
  case isFalse => exact ⟨h, by decide⟩

theorem checkLeftover_ensures (w : Int) (rest : Nat) : (checkLeftover w rest t).Ensures s fun _ u => GrownWithin s u := by
  unfold checkLeftover
  split
  · exact h
  · exact ⟨h, by decide⟩

/-- A source operand's value is an Int64, and its operand cell is usable. -/
theorem readOperand_ensures (w : Int) (k : Nat) (m : Mode) :
    (readOperand w k m t).Ensures s fun v u =>
      GrownWithin s u ∧ (s.Inv → Fits64 v) ∧ s.cfg.memCap.below (s.ip + k) = true := by
  have addressed : ∀ a u, GrownWithin s u → s.cfg.memCap.below (s.ip + k) = true →
      ((checkAddress a u).andThen fun a s => memRead a s).Ensures s fun v u =>
        GrownWithin s u ∧ (s.Inv → Fits64 v) ∧ s.cfg.memCap.below (s.ip + k) = true := fun a u hu hb =>
    (checkAddress_ensures hu a).andThen fun b _ hu => (memRead_ensures hu b).mono fun _ _ ⟨hg, hv, _⟩ => ⟨hg, hv, hb⟩
  cases m with
  | position => exact (rawOperand_ensures h k).andThen fun p _ ⟨hu, _, hb⟩ => addressed p _ hu hb
  | immediate => exact rawOperand_ensures h k
  | relative =>
    exact (rawOperand_ensures h k).andThen fun p _ ⟨hu, _, hb⟩ =>
      (checkFits_ensures hu w _).andThen fun a _ ⟨hu, _⟩ => addressed a _ hu hb
  | invalid d => exact ⟨h, by decide⟩

/-- A destination is a usable cell, and so is its operand cell. -/
theorem writeOperand_ensures (w : Int) (k : Nat) (m : Mode) :
    (writeOperand w k m t).Ensures s fun dst u =>
      GrownWithin s u ∧ s.cfg.memCap.below dst = true ∧ s.cfg.memCap.below (s.ip + k) = true := by
  have addressed : ∀ a u, GrownWithin s u → s.cfg.memCap.below (s.ip + k) = true →
      ((checkAddress a u).andThen fun a s => checkCapacity a s).Ensures s fun dst u =>
        GrownWithin s u ∧ s.cfg.memCap.below dst = true ∧ s.cfg.memCap.below (s.ip + k) = true := fun a u hu hb =>
    (checkAddress_ensures hu a).andThen fun b _ hu => (checkCapacity_ensures hu b).mono fun _ _ ⟨hg, hd⟩ => ⟨hg, hd, hb⟩
  cases m with
  | position => exact (rawOperand_ensures h k).andThen fun p _ ⟨hu, _, hb⟩ => addressed p _ hu hb
  | immediate => exact ⟨h, by decide⟩
  | relative =>
    exact (rawOperand_ensures h k).andThen fun p _ ⟨hu, _, hb⟩ =>
      (checkFits_ensures hu w _).andThen fun a _ ⟨hu, _⟩ => addressed a _ hu hb
  | invalid d => exact ⟨h, by decide⟩

/-! ### The commits -/

/-- The store and advance at the end of an instruction of n + 1 cells, whose last cell is usable. -/
theorem memWrite_advance_ensures {dst n : Nat} {v : Int} (hd : s.cfg.memCap.below dst = true) (hv : Fits64 v)
    (hb : s.cfg.memCap.below (s.ip + n) = true) :
    ((memWrite dst v t).andThen fun _ s => .ok () (s.advance (n + 1))).Ensures s fun _ u => Keeps s u := by
  have hw : t.cfg.memCap.below dst = true ∧ IpInRange t.cfg.memCap (t.ip + (n + 1)) := by
    rw [h.cfg_eq, h.ip_eq]; exact ⟨hd, IpInRange.succ_of_below hb⟩
  rw [memWrite_eq, if_pos hw.1]
  exact h.keeps ⟨le_max_left _ _, rfl, fun ht => (ht.1.store hw.1 hv).withIp hw.2⟩

/-- The commit of IN (rule R90): suspended, or the front of the queue stored. -/
theorem takeInput_ensures {dst : Nat} (hd : s.cfg.memCap.below dst = true) (hb : s.cfg.memCap.below (s.ip + 1) = true) :
    (takeInput dst t).Ensures s fun _ u => Keeps s u := by
  have hw : t.cfg.memCap.below dst = true ∧ IpInRange t.cfg.memCap (t.ip + 2) := by
    rw [h.cfg_eq, h.ip_eq]; exact ⟨hd, IpInRange.succ_of_below hb⟩
  cases hq : t.inq with
  | nil =>
    simp only [takeInput, hq]
    exact h.keeps ⟨le_rfl, rfl, fun ht => ht.stop (by decide)⟩
  | cons v rest =>
    simp only [takeInput, hq]
    rw [memWrite_eq, if_pos hw.1]
    refine h.keeps ⟨le_max_left _ _, rfl, fun ht => ?_⟩
    obtain ⟨hv, hi⟩ := ht.1.dequeue hq
    exact (hi.store hw.1 hv).withIp hw.2

end Parts

/-! ### The bodies of the instructions -/

/-- Format F3: whatever computes an Int64 and only checks it. -/
theorem threeOperand_ensures (w : Int) (s1 s2 d : Mode) (rest : Nat) (s : State) {compute : Int → Int → State → Res Int}
    (hc : ∀ a b t, GrownWithin s t → (compute a b t).Ensures s fun v u => GrownWithin s u ∧ Fits64 v) :
    (threeOperand w s1 s2 d rest compute s).Ensures s fun _ u => Keeps s u :=
  (readOperand_ensures (GrownWithin.refl s) w 1 s1).andThen fun a _ ⟨h1, _⟩ =>
    (readOperand_ensures h1 w 2 s2).andThen fun b _ ⟨h2, _⟩ =>
      (writeOperand_ensures h2 w 3 d).andThen fun _ _ ⟨h3, hd, hb⟩ =>
        (checkLeftover_ensures h3 w rest).andThen fun _ _ h4 =>
          (hc a b _ h4).andThen fun _ _ ⟨h5, hv⟩ => memWrite_advance_ensures h5 hd hv hb

/-- Format F2: the target is the content of a cell, so an Int64. -/
theorem jumpWhen_ensures (w : Int) (c m : Mode) (rest : Nat) (taken : Int → Bool) (s : State) :
    (jumpWhen w c m rest taken s).Ensures s fun _ u => Keeps s u := by
  refine (readOperand_ensures (GrownWithin.refl s) w 1 c).andThen fun cond _ ⟨h1, _⟩ =>
    (readOperand_ensures h1 w 2 m).andThen fun target _ ⟨h2, hv, hb⟩ =>
      (checkLeftover_ensures h2 w rest).andThen fun _ t h => ?_
  obtain ⟨n, hn, -, rfl⟩ := h.eq_withLen
  split
  case isTrue =>
    split
    case isTrue => exact ⟨h, by decide⟩
    case isFalse => exact ⟨hn, rfl, fun hs => (h.live hs).1.withIp (IpInRange.toNat_of_fits (hv hs.1) _)⟩
  case isFalse => exact ⟨hn, rfl, fun hs => (h.live hs).1.withIp (IpInRange.succ_of_below hb)⟩

theorem execInp_keeps (d : Mode) (rest : Nat) {s t : State} (ht : stateAfter (execInp d rest s) = some t) : Keeps s t :=
  Res.Ensures.outcome_keeps ((writeOperand_ensures (GrownWithin.refl s) _ 1 d).andThen fun _ _ ⟨h1, hd, hb⟩ =>
    (checkLeftover_ensures h1 _ rest).andThen fun _ _ h2 => takeInput_ensures h2 hd hb) ht

theorem execOut_keeps (m : Mode) (rest : Nat) {s t : State} (ht : stateAfter (execOut m rest s) = some t) : Keeps s t := by
  refine Res.Ensures.outcome_keeps ((readOperand_ensures (GrownWithin.refl s) _ 1 m).andThen fun v _ ⟨h1, hv, hb⟩ =>
    (checkLeftover_ensures h1 _ rest).andThen fun _ u h => ?_) ht
  obtain ⟨n, hn, -, rfl⟩ := h.eq_withLen
  have sent : s.Live → (({ s with len := n, out := v } : State).advance 2).Live := fun hs =>
    ⟨((h.live hs).1.withOut (hv hs.1)).withIp (IpInRange.succ_of_below hb), hs.2⟩
  exact ⟨hn, rfl, fun hs => (sent hs).stop (by decide)⟩

theorem execArb_keeps (m : Mode) (rest : Nat) {s t : State} (ht : stateAfter (execArb m rest s) = some t) : Keeps s t := by
  refine Res.Ensures.outcome_keeps ((readOperand_ensures (GrownWithin.refl s) _ 1 m).andThen fun v _ ⟨h1, _, hb⟩ =>
    (checkLeftover_ensures h1 _ rest).andThen fun _ _ h2 => (checkFits_ensures h2 _ _).andThen fun r u ⟨h, hr⟩ => ?_) ht
  obtain ⟨n, hn, -, rfl⟩ := h.eq_withLen
  exact ⟨hn, rfl, fun hs => ((h.live hs).1.withRb hr).withIp (IpInRange.succ_of_below hb)⟩

theorem execHlt_keeps (rest : Nat) {s t : State} (ht : stateAfter (execHlt rest s) = some t) : Keeps s t := by
  refine Res.Ensures.outcome_keeps ((checkLeftover_ensures (GrownWithin.refl s) _ rest).andThen fun _ u h => ?_) ht
  exact h.keeps ⟨le_rfl, rfl, fun hu => hu.stop (by decide)⟩

/-! ### The step -/

/-- Every instruction keeps it, whether it completes, suspends or faults. -/
theorem exec_keeps (i : Instr) {s t : State} (ht : stateAfter (exec i s) = some t) : Keeps s t := by
  cases i with
  | add s1 s2 d rest => exact (threeOperand_ensures _ s1 s2 d rest s fun _ _ _ h => checkFits_ensures h _ _).outcome_keeps ht
  | mul s1 s2 d rest => exact (threeOperand_ensures _ s1 s2 d rest s fun _ _ _ h => checkFits_ensures h _ _).outcome_keeps ht
  | inp d rest => exact execInp_keeps d rest ht
  | out m rest => exact execOut_keeps m rest ht
  | jt c m rest => exact (jumpWhen_ensures _ c m rest _ s).outcome_keeps ht
  | jf c m rest => exact (jumpWhen_ensures _ c m rest _ s).outcome_keeps ht
  | lt s1 s2 d rest => exact (threeOperand_ensures _ s1 s2 d rest s fun _ _ _ h => .ok ⟨h, fits64_truth _⟩).outcome_keeps ht
  | eq s1 s2 d rest => exact (threeOperand_ensures _ s1 s2 d rest s fun _ _ _ h => .ok ⟨h, fits64_truth _⟩).outcome_keeps ht
  | arb m rest => exact execArb_keeps m rest ht
  | hlt rest => exact execHlt_keeps rest ht

theorem fetch_ensures (s : State) : (fetch s).Ensures s fun _ u => GrownWithin s u := by
  refine (memRead_ensures (GrownWithin.refl s) s.ip).andThen fun w u ⟨h, _⟩ => ?_
  cases decode w with
  | ok i => exact h
  | error e => exact ⟨h, by decide⟩

theorem engineStep_keeps {s t : State} (ht : stateAfter (engineStep s) = some t) : Keeps s t := by
  have hf := fetch_ensures s
  unfold engineStep at ht
  cases hr : fetch s with
  | ok i u =>
    rw [hr] at hf ht
    exact GrownWithin.keeps hf (exec_keeps i ht)
  | trap c i u =>
    rw [hr] at hf
    exact Res.Ensures.outcome_keeps (r := .trap c i u) hf (by rw [hr] at ht; exact ht)

/-- What a step does, by STATUS: an instruction of a run, RunAfterHalt, or the same fault again (rules R130, R170, R176). -/
theorem step_cases {s t : State} (ht : stateAfter (step s) = some t) :
    (s.status ≠ .faulted ∧ stateAfter (engineStep s.startRun) = some t) ∨ t = s.raise .runAfterHalt s.ip ∨ t = s := by
  unfold step runStep at ht
  cases hs : s.status <;> simp only [hs] at ht
  case halted => exact .inr (.inl (Option.some.inj ht).symm)
  case faulted => exact .inr (.inr (Option.some.inj ht).symm)
  all_goals exact .inl ⟨by decide, ht⟩

/-- Settles O39: a step is an instruction of a live state, which `engineStep_keeps`, or enters or repeats a fault. -/
theorem stepKeepsTheInvariant : Obligations.StepKeepsTheInvariant := by
  intro s t h ht
  obtain ⟨hs, he⟩ | rfl | rfl := step_cases ht
  · exact (engineStep_keeps he).inv (h.live_startRun hs)
  · exact h.raise (by decide) _
  · exact h

/-- Settles O33, by the same cases of a step. -/
theorem lenNeverDecreasesAndParametersStay : Obligations.LenNeverDecreasesAndParametersStay := by
  intro s t ht
  obtain ⟨-, he⟩ | rfl | rfl := step_cases ht
  · exact ⟨(engineStep_keeps he).len_le, (engineStep_keeps he).cfg_eq⟩
  · exact ⟨le_rfl, rfl⟩
  · exact ⟨le_rfl, rfl⟩

end Sys2Proof.Machine
end

section
/-!
PROOFS. Two things that no instruction observes: LEN (rules R12, R36), and inputs queued behind those it takes (rules R15,
R92). Both are one statement: a step commutes with `State.extend`, which raises LEN and appends to INQ. Every part of an
instruction does (`Commutes`); the only exception is an IN that starves.
-/

namespace Sys2Proof.Machine

/-- `s` with LEN at least n and the inputs `later` queued behind. -/
def State.extend (n : Nat) (later : List Int) (s : State) : State :=
  { s with len := max s.len n, inq := s.inq ++ later }

/-- `f` applied to the state that a part of an instruction leaves. -/
def Res.mapState {α : Type} (f : State → State) (r : Res α) : Res α :=
  match r with
  | .ok a s => .ok a (f s)
  | .trap c i s => .trap c i (f s)

/-- `f` applied to the state that an instruction or a step leaves. -/
def mapInstance (f : State → State) (x : Host.Outcome State Fault Refusal) : Host.Outcome State Fault Refusal :=
  match x with
  | .next s => .next (f s)
  | .fault (.faulted s) => .fault (.faulted (f s))
  | .fault (.noInstance c i) => .fault (.noInstance c i)
  | .refused r => .refused r

/-- A part of an instruction gives the same value or the same trap from `f s` as from `s`, and leaves `f` of the state. -/
def Commutes {α : Type} (f : State → State) (g : State → Res α) : Prop := ∀ s, g (f s) = (g s).mapState f

theorem Commutes.andThen {α β : Type} {f : State → State} {g : State → Res α} {h : α → State → Res β}
    (hg : Commutes f g) (hh : ∀ a, Commutes f (h a)) : Commutes f fun s => (g s).andThen h := by
  intro s
  show (g (f s)).andThen h = ((g s).andThen h).mapState f
  rw [hg s]
  cases g s with
  | ok a t => exact hh a t
  | trap c i t => rfl

/-- A check that reads nothing but what `f` leaves alone. -/
theorem Commutes.ite {α : Type} {f : State → State} {g h : State → Res α} {p : State → Prop} [DecidablePred p]
    (hp : ∀ s, p (f s) ↔ p s) (hg : Commutes f g) (hh : Commutes f h) : Commutes f fun s => if p s then g s else h s := by
  intro s
  simp only [hp s]
  split
  · exact hg s
  · exact hh s

theorem Commutes.trap {α : Type} {f : State → State} (c : Cause) (i : Int) :
    Commutes f fun s => (Res.trap c i s : Res α) := fun _ => rfl

theorem Commutes.ok {α : Type} {f : State → State} (a : α) : Commutes f (Res.ok a) := fun _ => rfl

section Extend

variable (n : Nat) (later : List Int)

theorem State.grow_extend (a : Nat) (s : State) : (s.extend n later).grow a = (s.grow a).extend n later := by
  simp [State.grow, State.extend, max_right_comm]

/-! ### The parts of an instruction -/

theorem memRead_commutes (a : Nat) : Commutes (State.extend n later) (memRead a) := by
  refine Commutes.ite (p := fun s => s.cfg.memCap.below a = true) (fun s => Iff.rfl) (fun s => ?_) (Commutes.trap _ _)
  exact congrArg (Res.ok _) (State.grow_extend n later a s)

theorem memWrite_commutes (a : Nat) (v : Int) : Commutes (State.extend n later) (memWrite a v) := by
  refine Commutes.ite (p := fun s => s.cfg.memCap.below a = true) (fun s => Iff.rfl) (fun s => ?_) (Commutes.trap _ _)
  exact congrArg (fun u : State => Res.ok () { u with mem := s.mem.write a v }) (State.grow_extend n later a s)

theorem rawOperand_commutes (k : Nat) : Commutes (State.extend n later) (rawOperand k) :=
  fun s => memRead_commutes n later (s.ip + k) s

theorem checkAddress_commutes (a : Int) : Commutes (State.extend n later) (checkAddress a) :=
  Commutes.ite (fun _ => Iff.rfl) (Commutes.trap _ _) (Commutes.ok _)

theorem checkCapacity_commutes (a : Nat) : Commutes (State.extend n later) (checkCapacity a) :=
  Commutes.ite (p := fun s => s.cfg.memCap.below a = true) (fun _ => Iff.rfl) (Commutes.ok _) (Commutes.trap _ _)

theorem checkFits_commutes (w r : Int) : Commutes (State.extend n later) (checkFits w r) :=
  Commutes.ite (fun _ => Iff.rfl) (Commutes.ok _) (Commutes.trap _ _)

theorem checkLeftover_commutes (w : Int) (rest : Nat) : Commutes (State.extend n later) (checkLeftover w rest) :=
  Commutes.ite (fun _ => Iff.rfl) (Commutes.ok _) (Commutes.trap _ _)

theorem relativeAddress_commutes (w p : Int) : Commutes (State.extend n later) (relativeAddress w p) :=
  fun s => checkFits_commutes n later w (s.rb + p) s

theorem readOperand_commutes (w : Int) (k : Nat) (m : Mode) : Commutes (State.extend n later) (readOperand w k m) := by
  have addressed : ∀ a, Commutes (State.extend n later) fun s => (checkAddress a s).andThen fun a s => memRead a s :=
    fun a => (checkAddress_commutes n later a).andThen (memRead_commutes n later)
  cases m with
  | position => exact (rawOperand_commutes n later k).andThen addressed
  | immediate => exact rawOperand_commutes n later k
  | relative =>
    exact (rawOperand_commutes n later k).andThen fun p => (relativeAddress_commutes n later w p).andThen addressed
  | invalid d => exact Commutes.trap _ _

theorem writeOperand_commutes (w : Int) (k : Nat) (m : Mode) : Commutes (State.extend n later) (writeOperand w k m) := by
  have addressed : ∀ a, Commutes (State.extend n later) fun s => (checkAddress a s).andThen fun a s => checkCapacity a s :=
    fun a => (checkAddress_commutes n later a).andThen (checkCapacity_commutes n later)
  cases m with
  | position => exact (rawOperand_commutes n later k).andThen addressed
  | immediate => exact Commutes.trap _ _
  | relative =>
    exact (rawOperand_commutes n later k).andThen fun p => (relativeAddress_commutes n later w p).andThen addressed
  | invalid d => exact Commutes.trap _ _

/-! ### The bodies of the instructions -/

theorem threeOperand_commutes (w : Int) (s1 s2 d : Mode) (rest : Nat) {compute : Int → Int → State → Res Int}
    (hc : ∀ a b, Commutes (State.extend n later) (compute a b)) :
    Commutes (State.extend n later) (threeOperand w s1 s2 d rest compute) :=
  (readOperand_commutes n later w 1 s1).andThen fun a => (readOperand_commutes n later w 2 s2).andThen fun b =>
    (writeOperand_commutes n later w 3 d).andThen fun dst => (checkLeftover_commutes n later w rest).andThen fun _ =>
      (hc a b).andThen fun r => (memWrite_commutes n later dst r).andThen fun _ _ => rfl

theorem jumpWhen_commutes (w : Int) (c t : Mode) (rest : Nat) (taken : Int → Bool) :
    Commutes (State.extend n later) (jumpWhen w c t rest taken) :=
  (readOperand_commutes n later w 1 c).andThen fun _ => (readOperand_commutes n later w 2 t).andThen fun _ =>
    (checkLeftover_commutes n later w rest).andThen fun _ =>
      Commutes.ite (fun _ => Iff.rfl) (Commutes.ite (fun _ => Iff.rfl) (Commutes.trap _ _) fun _ => rfl) fun _ => rfl

/-- The commit of IN takes the same front of the queue, unless the queue is empty and something is queued behind. -/
theorem takeInput_extend (dst : Nat) {s : State} (h : s.inq = [] → later = []) :
    takeInput dst (s.extend n later) = (takeInput dst s).mapState (State.extend n later) := by
  cases hq : s.inq with
  | nil =>
    obtain rfl := h hq
    simp only [takeInput, State.extend, hq, List.append_nil]
    simp [Res.mapState, State.extend, State.stop, hq]
  | cons v rest =>
    have commit : Commutes (State.extend n later) fun s => (memWrite dst v s).andThen fun _ s => .ok () (s.advance 2) :=
      (memWrite_commutes n later dst v).andThen fun _ _ => rfl
    have hq' : (s.extend n later).inq = v :: (rest ++ later) := by simp [State.extend, hq]
    simp only [takeInput, hq, hq']
    exact commit { s with inq := rest }

/-- The end of an instruction whose body commutes. -/
theorem Commutes.outcome {g : State → Res Unit} (h : Commutes (State.extend n later) g) (s : State) :
    (g (s.extend n later)).outcome = mapInstance (State.extend n later) (g s).outcome := by
  rw [h s]
  cases g s <;> rfl

/-- IN does the same with more inputs queued, unless it starves. -/
theorem execInp_extend (d : Mode) (rest : Nat) {s : State}
    (h : ∀ t, execInp d rest s = .next t → t.status = .needInput → later = []) :
    execInp d rest (s.extend n later) = mapInstance (State.extend n later) (execInp d rest s) := by
  simp only [execInp] at h ⊢
  rw [writeOperand_commutes n later _ 1 d s]
  cases hw : writeOperand (encode (.inp d rest)) 1 d s with
  | trap c i u => rfl
  | ok dst u =>
    simp only [hw, Res.andThen_ok, Res.mapState] at h ⊢
    rw [checkLeftover_commutes n later _ rest u]
    cases hl : checkLeftover (encode (.inp d rest)) rest u with
    | trap c i v => rfl
    | ok a v =>
      simp only [hl, Res.andThen_ok, Res.mapState] at h ⊢
      have starves : v.inq = [] → later = [] := fun hq =>
        h (v.stop .needInput) (by rw [takeInput_of_nil (OnlyGrown.refl v) dst hq]; rfl) rfl
      rw [takeInput_extend n later dst starves]
      cases takeInput dst v <;> rfl

theorem execOut_extend (m : Mode) (rest : Nat) (s : State) :
    execOut m rest (s.extend n later) = mapInstance (State.extend n later) (execOut m rest s) :=
  Commutes.outcome n later ((readOperand_commutes n later _ 1 m).andThen fun _ =>
    (checkLeftover_commutes n later _ rest).andThen fun _ _ => rfl) s

theorem execArb_extend (m : Mode) (rest : Nat) (s : State) :
    execArb m rest (s.extend n later) = mapInstance (State.extend n later) (execArb m rest s) :=
  Commutes.outcome n later ((readOperand_commutes n later _ 1 m).andThen fun v =>
    (checkLeftover_commutes n later _ rest).andThen fun _ =>
      Commutes.andThen (fun s => checkFits_commutes n later _ (s.rb + v) s) fun _ _ => rfl) s

theorem execHlt_extend (rest : Nat) (s : State) :
    execHlt rest (s.extend n later) = mapInstance (State.extend n later) (execHlt rest s) :=
  Commutes.outcome n later ((checkLeftover_commutes n later _ rest).andThen fun _ _ => rfl) s

/-! ### The step -/

/-- Every instruction but a starving IN does the same from an extended state. -/
theorem exec_extend (i : Instr) {s : State} (h : ∀ t, exec i s = .next t → t.status = .needInput → later = []) :
    exec i (s.extend n later) = mapInstance (State.extend n later) (exec i s) := by
  cases i with
  | add s1 s2 d rest =>
    exact Commutes.outcome n later (threeOperand_commutes n later _ s1 s2 d rest fun _ _ => checkFits_commutes n later _ _) s
  | mul s1 s2 d rest =>
    exact Commutes.outcome n later (threeOperand_commutes n later _ s1 s2 d rest fun _ _ => checkFits_commutes n later _ _) s
  | inp d rest => exact execInp_extend n later d rest h
  | out m rest => exact execOut_extend n later m rest s
  | jt c m rest => exact Commutes.outcome n later (jumpWhen_commutes n later _ c m rest _) s
  | jf c m rest => exact Commutes.outcome n later (jumpWhen_commutes n later _ c m rest _) s
  | lt s1 s2 d rest =>
    exact Commutes.outcome n later (threeOperand_commutes n later _ s1 s2 d rest fun _ _ => Commutes.ok _) s
  | eq s1 s2 d rest =>
    exact Commutes.outcome n later (threeOperand_commutes n later _ s1 s2 d rest fun _ _ => Commutes.ok _) s
  | arb m rest => exact execArb_extend n later m rest s
  | hlt rest => exact execHlt_extend n later rest s

theorem fetch_commutes : Commutes (State.extend n later) fetch := by
  intro s
  refine Commutes.andThen (memRead_commutes n later s.ip) (fun w u => ?_) s
  cases decode w <;> rfl

theorem engineStep_extend {s : State} (h : ∀ t, engineStep s = .next t → t.status = .needInput → later = []) :
    engineStep (s.extend n later) = mapInstance (State.extend n later) (engineStep s) := by
  unfold engineStep at h ⊢
  rw [fetch_commutes n later s]
  cases hf : fetch s with
  | ok i u =>
    rw [hf] at h
    exact exec_extend n later i h
  | trap c i u => rfl

/-- Every step but a starving one does the same from an extended state. -/
theorem step_extend {s : State} (h : ∀ t, step s = .next t → t.status = .needInput → later = []) :
    step (s.extend n later) = mapInstance (State.extend n later) (step s) := by
  unfold step runStep at h ⊢
  have status_eq : (s.extend n later).status = s.status := rfl
  rw [status_eq]
  cases hs : s.status <;> simp only [hs] at h ⊢
  case halted => rfl
  case faulted => rfl
  all_goals exact engineStep_extend n later h

end Extend

/-! ### LEN -/

theorem SameButLen.symm {s t : State} (h : SameButLen s t) : SameButLen t s := by
  unfold SameButLen at *
  rw [h]

theorem SameOutcomeButLen.symm {x y : Host.Outcome State Fault Refusal} (h : SameOutcomeButLen x y) :
    SameOutcomeButLen y x := by
  match x, y with
  | .next _, .next _ => exact SameButLen.symm h
  | .fault (.faulted _), .fault (.faulted _) => exact SameButLen.symm h
  | .fault (.noInstance _ _), .fault (.noInstance _ _) => exact ⟨h.1.symm, h.2.symm⟩
  | .refused _, .refused _ => exact Eq.symm h

/-- With nothing queued behind, an extension only raises LEN. -/
theorem sameButLen_extend (n : Nat) (s : State) : SameButLen s (s.extend n []) := by
  simp [SameButLen, State.extend]

theorem sameOutcomeButLen_mapInstance (n : Nat) (x : Host.Outcome State Fault Refusal) :
    SameOutcomeButLen x (mapInstance (State.extend n []) x) := by
  match x with
  | .next s => exact sameButLen_extend n s
  | .fault (.faulted s) => exact sameButLen_extend n s
  | .fault (.noInstance _ _) => exact ⟨rfl, rfl⟩
  | .refused _ => exact rfl

/-- The state with the greater LEN is an extension of the other. -/
theorem SameButLen.eq_extend {s t : State} (h : SameButLen s t) (hl : s.len ≤ t.len) : t = s.extend t.len [] := by
  rw [State.extend, List.append_nil, max_eq_right hl]
  exact h

/-- Settles O11: of the two states the one with the greater LEN is an extension of the other, and a step commutes with it. -/
theorem lenIsUnobservableByAStep : Obligations.LenIsUnobservableByAStep := by
  have raised : ∀ s t : State, SameButLen s t → s.len ≤ t.len → SameOutcomeButLen (step s) (step t) := fun s t h hl => by
    rw [h.eq_extend hl, step_extend t.len [] fun _ _ _ => rfl]
    exact sameOutcomeButLen_mapInstance _ _
  intro s t h
  rcases le_total s.len t.len with hl | hl
  · exact raised s t h hl
  · exact (raised t s h.symm hl).symm

/-! ### Later inputs -/

/-- More inputs queued behind are an extension that leaves LEN. -/
theorem State.extend_zero (later : List Int) (s : State) : s.extend 0 later = { s with inq := s.inq ++ later } := by
  simp [State.extend]

/-- Settles O38: queueing more inputs is an extension, and a step that does not starve commutes with it. -/
theorem laterInputsDoNotChangeAStep : Obligations.LaterInputsDoNotChangeAStep := by
  intro s t later
  rw [← State.extend_zero, ← State.extend_zero]
  constructor
  · intro h hs
    have fed : ∀ u, step s = .next u → u.status = .needInput → later = [] := fun u hu hn => by
      rw [h] at hu
      cases hu
      exact absurd hn hs
    rw [step_extend 0 later fed, h]
    rfl
  · intro h
    have fed : ∀ u, step s = .next u → u.status = .needInput → later = [] := fun u hu => by
      rw [h] at hu
      cases hu
    rw [step_extend 0 later fed, h]
    rfl

end Sys2Proof.Machine
end

section
/-!
PROOFS. The host operations (rules R133 to R142, R190): what `create` leaves, what each operation can do to the engine,
said once per operation, and from that the invariant of rule R23 and the end of a halted or faulted engine (rule R134).
-/

namespace Sys2Proof

/-- Nothing fits every capacity. -/
theorem Cap.holds_zero (c : Cap) : c.holds 0 = true := by
  cases c with
  | infinite => rfl
  | limit n => exact decide_eq_true (Nat.zero_le n)

end Sys2Proof

namespace Sys2Proof.Machine

/-! ### create -/

/-- A program of Int64 values that fits becomes the initial state (rules R22, R190). -/
theorem create_of_fits {cfg : Config} {program : List Int} (hv : ∀ v ∈ program, Fits64 v)
    (hc : cfg.memCap.holds program.length = true) : create cfg program = .next (State.initial cfg program) := by
  rw [create, if_pos (List.all_eq_true.mpr fun v h => decide_eq_true (hv v h)), if_pos hc]

/-- A longer program makes nothing (rule R169). -/
theorem create_of_not_holds {cfg : Config} {program : List Int} (hv : ∀ v ∈ program, Fits64 v)
    (hc : cfg.memCap.holds program.length = false) :
    create cfg program = .fault (.noInstance .memoryExhausted (firstOutside cfg.memCap)) := by
  rw [create, if_pos (List.all_eq_true.mpr fun v h => decide_eq_true (hv v h)), if_neg (by simp [hc])]

/-- What `create` makes is the initial state of a program of Int64 values that fits. -/
theorem create_eq_next {cfg : Config} {program : List Int} {s : State} (h : create cfg program = .next s) :
    s = State.initial cfg program ∧ (∀ v ∈ program, Fits64 v) ∧ cfg.memCap.holds program.length = true := by
  unfold create at h
  split at h
  case isFalse => cases h
  case isTrue hv =>
    split at h
    case isFalse => cases h
    case isTrue hc =>
      cases h
      exact ⟨rfl, fun v hm => of_decide_eq_true (List.all_eq_true.mp hv v hm), hc⟩

/-- A program's listed cells hold its values. -/
theorem Memory.value_mem_of_mem_ofCells {i : Nat} {vs : List Int} {c : Nat × Int} (h : c ∈ Memory.ofCells i vs) :
    c.2 ∈ vs := by
  induction vs generalizing i with
  | nil => cases h
  | cons v vs ih =>
    unfold Memory.ofCells at h
    split at h
    · exact List.mem_cons_of_mem _ (ih h)
    · rcases List.mem_cons.mp h with rfl | h
      · exact List.mem_cons_self
      · exact List.mem_cons_of_mem _ (ih h)

theorem IpInRange.zero (c : Cap) : IpInRange c 0 := by
  cases c with
  | infinite => trivial
  | limit n => exact Nat.zero_le _

theorem fits64_zero : Fits64 0 := by decide

/-- What `create` makes meets the invariant. -/
theorem State.initial_inv {cfg : Config} {program : List Int} (hv : ∀ v ∈ program, Fits64 v)
    (hc : cfg.memCap.holds program.length = true) : (State.initial cfg program).Inv where
  memCanonical := Memory.wf_ofCells 0 program
  memBelowLen := fun c hm => (Memory.ofCells_ge 0 program c hm).2.trans_eq (Nat.zero_add _)
  memFits := fun _ hm => hv _ (Memory.value_mem_of_mem_ofCells hm)
  lenInCap := hc
  ipInRange := IpInRange.zero _
  rbFits := fits64_zero
  inqFits := fun _ hm => by cases hm
  inqInCap := Cap.holds_zero _
  outFits := fits64_zero
  faultedCause := fun h => by cases h
  soundCause := fun _ => rfl

/-- Settles O40: the reset state is the initial state of the empty program. -/
theorem invariantHoldsAtReset : Obligations.InvariantHoldsAtReset :=
  have fits : ∀ v ∈ ([] : List Int), Fits64 v := by simp
  ⟨create_of_fits fits rfl, State.initial_inv (cfg := Config.sourceLiteral) fits rfl⟩

/-! ### What each operation can do -/

/-- A host operation once it is admitted (rule R134). -/
def performOp (fuel : Nat) (op : HostOp) (s : State) : HostOutcome :=
  match op with
  | .create cfg program => createBeside cfg program s
  | .withInputs vs => appendInputs vs s
  | .addInput v => appendInputs [v] s
  | .run => hostRun fuel s
  | .collectOutputs => collectLoop fuel fuel [] s
  | .peek a => peek a s
  | .poke a v => poke a v s
  | .clone => clone s

theorem hostOp_eq_performOp {fuel : Nat} {op : HostOp} {s : State} (hr : s.status ≠ .running)
    (hf : s.status = .faulted → op.needsSound = false) : hostOp fuel op s = performOp fuel op s := by
  have hn : ¬ (s.status = .faulted ∧ op.needsSound = true) := fun h => by simp [hf h.1] at h
  unfold hostOp
  rw [if_neg hr, if_neg hn]
  cases op <;> rfl

/-- An operation with a next state was admitted. -/
theorem hostOp_eq_next {fuel : Nat} {op : HostOp} {s : State} {x : HostResult × State} (h : hostOp fuel op s = .next x) :
    (s.status = .faulted → op.needsSound = false) ∧ performOp fuel op s = .next x := by
  have hr : s.status ≠ .running := fun hr => by
    unfold hostOp at h
    rw [if_pos hr] at h
    cases h
  have hf : s.status = .faulted → op.needsSound = false := fun hs => by
    by_contra hn
    unfold hostOp at h
    rw [if_neg hr, if_pos ⟨hs, by simpa using hn⟩] at h
    cases h
  exact ⟨hf, (hostOp_eq_performOp hr hf).symm.trans h⟩

theorem createBeside_eq_next {cfg : Config} {program : List Int} {s t : State} {r : HostResult}
    (h : createBeside cfg program s = .next (r, t)) :
    t = s ∧ ∀ fresh, r = .made fresh → create cfg program = .next fresh := by
  unfold createBeside at h
  cases hc : create cfg program <;> rw [hc] at h <;> cases h
  case next fresh => exact ⟨rfl, fun _ e => by cases e; rfl⟩
  case fault => exact ⟨rfl, fun _ e => by cases e⟩

theorem appendInputs_eq_next {vs : List Int} {s t : State} {r : HostResult} (h : appendInputs vs s = .next (r, t)) :
    r = .done ∧ t = { s with inq := s.inq ++ vs } ∧ (∀ v ∈ vs, Fits64 v) ∧
      s.cfg.inqCap.holds (s.inq.length + vs.length) = true := by
  unfold appendInputs at h
  split at h
  case isFalse => cases h
  case isTrue hv =>
    split at h
    case isFalse => cases h
    case isTrue hc =>
      cases h
      exact ⟨rfl, rfl, fun v hm => of_decide_eq_true (List.all_eq_true.mp hv v hm), hc⟩

theorem peek_eq_next {a : Nat} {s t : State} {r : HostResult} (h : peek a s = .next (r, t)) :
    (∀ fresh, r ≠ .made fresh) ∧
      (s.cfg.memCap.below a = true ∧ t = s.grow a ∨ t = s.raise .memoryExhausted a) := by
  unfold peek at h
  rw [memRead_eq] at h
  by_cases ha : s.cfg.memCap.below a = true
  · rw [if_pos ha] at h; cases h
    exact ⟨nofun, .inl ⟨ha, rfl⟩⟩
  · rw [if_neg ha] at h; cases h
    exact ⟨nofun, .inr rfl⟩

theorem poke_eq_next {a : Nat} {v : Int} {s t : State} {r : HostResult} (h : poke a v s = .next (r, t)) :
    (∀ fresh, r ≠ .made fresh) ∧
      (s.cfg.memCap.below a = true ∧ Fits64 v ∧ t = { s.grow a with mem := s.mem.write a v } ∨
        t = s.raise .memoryExhausted a) := by
  unfold poke at h
  split at h
  case isFalse => cases h
  case isTrue hv =>
    rw [memWrite_eq] at h
    by_cases ha : s.cfg.memCap.below a = true
    · rw [if_pos ha] at h; cases h
      exact ⟨nofun, .inl ⟨ha, hv, rfl⟩⟩
    · rw [if_neg ha] at h; cases h
      exact ⟨nofun, .inr rfl⟩

theorem clone_eq_next {s t : State} {r : HostResult} (h : clone s = .next (r, t)) : r = .made s ∧ t = s := by
  cases h
  exact ⟨rfl, rfl⟩

/-! ### create, to a host that has an engine -/

theorem hostOp_create {cfg : Config} {program : List Int} {s : State} (fuel : Nat) (hr : s.status ≠ .running) :
    hostOp fuel (.create cfg program) s = createBeside cfg program s := hostOp_eq_performOp hr fun _ => rfl

/-- Settles O46: `create` makes the initial state, whose cells are the program's, or nothing. -/
theorem createLeavesTheResetState : Obligations.CreateLeavesTheResetState := by
  constructor
  · intro cfg program hv hc
    have made := create_of_fits hv hc
    refine ⟨State.initial cfg program, made, fun k => ?_, Memory.wf_ofCells 0 program, rfl, fun fuel s hr => ?_⟩
    · have read := Memory.read_ofCells 0 program k
      rwa [Nat.zero_add] at read
    · rw [hostOp_create fuel hr, createBeside, made]
  · intro n inqCap program hv hn
    have notMade : create (Config.mk (.limit n) inqCap) program = .fault (.noInstance .memoryExhausted n) :=
      create_of_not_holds hv (decide_eq_false (Nat.not_le.mpr hn))
    exact ⟨notMade, fun fuel s hr => by rw [hostOp_create fuel hr, createBeside, notMade]⟩

/-! ### The invariant -/

/-- Where a host operation answers a next state it meets the invariant, and so does a state it makes. -/
def LeavesInv (x : HostOutcome) : Prop := ∀ r t, x = .next (r, t) → t.Inv ∧ ∀ fresh, r = .made fresh → fresh.Inv

theorem LeavesInv.next {r : HostResult} {s : State} (h : s.Inv) (hr : ∀ fresh, r ≠ .made fresh) :
    LeavesInv (.next (r, s)) := fun _ _ e => by
  cases e
  exact ⟨h, fun fresh hm => absurd hm (hr fresh)⟩

theorem LeavesInv.fault (f : Fault) : LeavesInv (.fault f) := fun _ _ e => by cases e

theorem LeavesInv.refused (q : Refusal) : LeavesInv (.refused q) := fun _ _ e => by cases e

theorem State.runResult_ne_made (s fresh : State) : s.runResult ≠ .made fresh := by
  unfold State.runResult
  cases s.status <;> nofun

theorem runLoop_leavesInv (fuel : Nat) {s : State} (h : s.Inv) : LeavesInv (runLoop fuel s) := by
  induction fuel generalizing s with
  | zero => exact LeavesInv.next h s.runResult_ne_made
  | succ fuel ih =>
    unfold runLoop
    split
    case isFalse => exact LeavesInv.next h s.runResult_ne_made
    case isTrue hs =>
      have live : s.Live := ⟨h, h.soundCause (by simp [hs])⟩
      have kept : ∀ t, stateAfter (engineStep s) = some t → t.Inv := fun t ht => (engineStep_keeps ht).inv live
      cases he : engineStep s with
      | next t => exact ih (kept t (by rw [he]; rfl))
      | fault f =>
        cases f with
        | faulted t => exact LeavesInv.next (kept t (by rw [he]; rfl)) t.runResult_ne_made
        | noInstance c i => exact LeavesInv.fault _
      | refused q => exact LeavesInv.refused q

theorem hostRun_leavesInv (fuel : Nat) {s : State} (h : s.Inv) : LeavesInv (hostRun fuel s) := by
  have loop : s.status ≠ .faulted → LeavesInv (runLoop fuel s.startRun) := fun hs =>
    runLoop_leavesInv fuel (h.live_startRun hs).1
  unfold hostRun
  cases hs : s.status
  case running => exact LeavesInv.refused _
  case halted => exact LeavesInv.next (h.raise (by decide) _) nofun
  case faulted => exact LeavesInv.next h nofun
  all_goals exact loop (by simp [hs])

theorem collectLoop_leavesInv (fuel runs : Nat) (outs : List Int) {s : State} (h : s.Inv) :
    LeavesInv (collectLoop fuel runs outs s) := by
  induction runs generalizing outs s with
  | zero => exact LeavesInv.next h nofun
  | succ runs ih =>
    have run := hostRun_leavesInv fuel h
    unfold collectLoop
    split
    next v t hr => exact ih _ (run _ t hr).1
    next t hr => exact LeavesInv.next (run _ t hr).1 nofun
    next t hr => exact LeavesInv.next ((run _ t hr).1.raise (by decide) _) nofun
    next r t _ _ _ hr => exact fun _ _ e => by cases e; exact run r t hr
    next f _ => exact LeavesInv.fault f
    next q _ => exact LeavesInv.refused q

theorem State.Inv.append {s : State} (h : s.Inv) {vs : List Int} (hv : ∀ v ∈ vs, Fits64 v)
    (hc : s.cfg.inqCap.holds (s.inq.length + vs.length) = true) : ({ s with inq := s.inq ++ vs } : State).Inv :=
  { h with
    inqFits := fun v hm => (List.mem_append.mp hm).elim (h.inqFits v) (hv v)
    inqInCap := by rw [← List.length_append] at hc; exact hc }

theorem appendInputs_leavesInv (vs : List Int) {s : State} (h : s.Inv) : LeavesInv (appendInputs vs s) := by
  intro r t e
  obtain ⟨rfl, rfl, hv, hc⟩ := appendInputs_eq_next e
  exact ⟨h.append hv hc, nofun⟩

/-- A usable cell may be grown up to. -/
theorem State.Inv.grow {s : State} (h : s.Inv) {a : Nat} (ha : s.cfg.memCap.below a = true) : (s.grow a).Inv :=
  h.withLen (le_max_left _ _) (Cap.holds_max h.lenInCap ha)

theorem performOp_leavesInv (fuel : Nat) (op : HostOp) {s : State} (h : s.Inv) : LeavesInv (performOp fuel op s) := by
  have exhausted : ∀ i, (s.raise .memoryExhausted i).Inv := h.raise (by decide)
  cases op with
  | create cfg program =>
    intro r t e
    obtain ⟨rfl, made⟩ := createBeside_eq_next e
    refine ⟨h, fun fresh hm => ?_⟩
    obtain ⟨rfl, hv, hc⟩ := create_eq_next (made fresh hm)
    exact State.initial_inv hv hc
  | withInputs vs => exact appendInputs_leavesInv vs h
  | addInput v => exact appendInputs_leavesInv [v] h
  | run => exact hostRun_leavesInv fuel h
  | collectOutputs => exact collectLoop_leavesInv fuel fuel [] h
  | peek a =>
    intro r t e
    obtain ⟨hm, ⟨ha, rfl⟩ | rfl⟩ := peek_eq_next e
    · exact ⟨h.grow ha, fun fresh e => absurd e (hm fresh)⟩
    · exact ⟨exhausted _, fun fresh e => absurd e (hm fresh)⟩
  | poke a v =>
    intro r t e
    obtain ⟨hm, ⟨ha, hv, rfl⟩ | rfl⟩ := poke_eq_next e
    · exact ⟨h.store ha hv, fun fresh e => absurd e (hm fresh)⟩
    · exact ⟨exhausted _, fun fresh e => absurd e (hm fresh)⟩
  | clone =>
    intro r t e
    obtain ⟨rfl, rfl⟩ := clone_eq_next e
    exact ⟨h, fun fresh e => by cases e; exact h⟩

/-- Settles O41: an admitted operation is one of the eight, and each keeps the invariant. -/
theorem hostOperationsKeepTheInvariant : Obligations.HostOperationsKeepTheInvariant :=
  fun fuel op _ t r h he => performOp_leavesInv fuel op h r t (hostOp_eq_next he).2

/-! ### A halted or faulted engine -/

theorem hostRun_of_halted (fuel : Nat) {s : State} (hs : s.status = .halted) :
    hostRun fuel s = .next (.faulted .runAfterHalt s.ip, s.raise .runAfterHalt s.ip) := by simp [hostRun, hs]

theorem hostRun_of_faulted (fuel : Nat) {s : State} (hs : s.status = .faulted) :
    hostRun fuel s = .next (.faulted s.cause s.info, s) := by simp [hostRun, hs]

/-- In a halted state `collect_outputs` is its first run, which faults (rule R170), or no run. -/
theorem collectLoop_of_halted {fuel runs : Nat} {outs : List Int} {s t : State} {r : HostResult}
    (hs : s.status = .halted) (h : collectLoop fuel runs outs s = .next (r, t)) :
    t = s ∨ t = s.raise .runAfterHalt s.ip := by
  cases runs with
  | zero => cases h; exact .inl rfl
  | succ runs =>
    simp only [collectLoop, hostRun_of_halted fuel hs] at h
    cases h; exact .inr rfl

theorem collectLoop_of_faulted {fuel runs : Nat} {outs : List Int} {s t : State} {r : HostResult}
    (hs : s.status = .faulted) (h : collectLoop fuel runs outs s = .next (r, t)) : t = s := by
  cases runs with
  | zero => cases h; rfl
  | succ runs =>
    simp only [collectLoop, hostRun_of_faulted fuel hs] at h
    cases h; rfl

/-- A faulted state is left as it is: what rule R134 admits there is create, run and collect_outputs. -/
theorem hostOp_of_faulted {fuel : Nat} {op : HostOp} {s t : State} {r : HostResult} (hs : s.status = .faulted)
    (h : hostOp fuel op s = .next (r, t)) : t = s := by
  obtain ⟨admitted, hp⟩ := hostOp_eq_next h
  have hn := admitted hs
  cases op <;> cases hn
  case create cfg program => exact (createBeside_eq_next hp).1
  case run =>
    rw [performOp, hostRun_of_faulted fuel hs] at hp
    cases hp; rfl
  case collectOutputs => exact collectLoop_of_faulted hs hp

/-- What an operation can do to a halted state: leave it, enter a fault, queue inputs, or grow or poke its memory. -/
theorem hostOp_of_halted {fuel : Nat} {op : HostOp} {s t : State} {r : HostResult} (hs : s.status = .halted)
    (h : hostOp fuel op s = .next (r, t)) :
    t = s ∨ (∃ c i, t = s.raise c i) ∨ (∃ vs, t = { s with inq := s.inq ++ vs }) ∨ (∃ a, t = s.grow a) ∨
      ∃ a v, op = .poke a v ∧ t = { s.grow a with mem := s.mem.write a v } := by
  obtain ⟨-, hp⟩ := hostOp_eq_next h
  cases op with
  | create cfg program => exact .inl (createBeside_eq_next hp).1
  | withInputs vs => exact .inr (.inr (.inl ⟨vs, (appendInputs_eq_next hp).2.1⟩))
  | addInput v => exact .inr (.inr (.inl ⟨[v], (appendInputs_eq_next hp).2.1⟩))
  | run =>
    rw [performOp, hostRun_of_halted fuel hs] at hp
    cases hp
    exact .inr (.inl ⟨_, _, rfl⟩)
  | collectOutputs =>
    exact (collectLoop_of_halted hs hp).imp_right fun e => .inl ⟨_, _, e⟩
  | peek a =>
    obtain ⟨-, ⟨-, e⟩ | e⟩ := peek_eq_next hp
    · exact .inr (.inr (.inr (.inl ⟨a, e⟩)))
    · exact .inr (.inl ⟨_, _, e⟩)
  | poke a v =>
    obtain ⟨-, ⟨-, -, e⟩ | e⟩ := poke_eq_next hp
    · exact .inr (.inr (.inr (.inr ⟨a, v, rfl, e⟩)))
    · exact .inr (.inl ⟨_, _, e⟩)
  | clone => exact .inl (clone_eq_next hp).2

/-- Settles O53: a faulted state is left as it is, and none of what can happen to a halted one writes the fields named. -/
theorem terminalStatesStayTerminal : Obligations.TerminalStatesStayTerminal := by
  intro fuel op s t r hs h
  rcases hs with hs | hs
  · have sound : s.status ≠ .faulted := by simp [hs]
    obtain rfl | ⟨c, i, rfl⟩ | ⟨vs, rfl⟩ | ⟨a, rfl⟩ | ⟨a, v, rfl, rfl⟩ := hostOp_of_halted hs h
    · exact ⟨rfl, rfl, rfl, rfl, fun _ => rfl, fun _ => rfl, .inl hs⟩
    · exact ⟨rfl, rfl, rfl, rfl, fun _ => rfl, fun e => absurd e sound, .inr rfl⟩
    · exact ⟨rfl, rfl, rfl, rfl, fun _ => rfl, fun e => absurd e sound, .inl hs⟩
    · exact ⟨rfl, rfl, rfl, rfl, fun _ => rfl, fun e => absurd e sound, .inl hs⟩
    · exact ⟨rfl, rfl, rfl, rfl, fun hp => absurd rfl (hp a v), fun e => absurd e sound, .inl hs⟩
  · obtain rfl := hostOp_of_faulted hs h
    exact ⟨rfl, rfl, rfl, rfl, fun _ => rfl, fun _ => rfl, .inr hs⟩

end Sys2Proof.Machine
end

section
/-!
PROOFS. What an instruction does, said once for all of them: it completes with its effect exactly as its rule says, or takes
the fault of its first failing check (`exec_spec`). From that, which instruction writes which field or cell (rules R10,
R13, R14, R15, R17).
-/

namespace Sys2Proof.Machine

/-- `t` is `s` after instruction i passed its checks: completed or, for an IN with an empty queue, suspended. -/
def Effect (i : Instr) (s t : State) : Prop :=
  match i with
  | .add s1 s2 d _ => StoredAt s t (destinationAddress s 3 d) (sourceValue s 1 s1 + sourceValue s 2 s2) 4
  | .mul s1 s2 d _ => StoredAt s t (destinationAddress s 3 d) (sourceValue s 1 s1 * sourceValue s 2 s2) 4
  | .inp d _ =>
    (s.inq = [] ∧ s.len ≤ t.len ∧ t = { s with len := t.len, status := .needInput }) ∨
      ∃ v rest, s.inq = v :: rest ∧ t.inq = rest ∧ StoredAt { s with inq := rest } t (destinationAddress s 1 d) v 2
  | .out m _ =>
    s.len ≤ t.len ∧ t = { s with len := t.len, out := sourceValue s 1 m, ip := s.ip + 2, status := .haveOutput }
  | .jt c m _ =>
    s.len ≤ t.len ∧ t = { s with
      len := t.len, ip := if sourceValue s 1 c ≠ 0 then (sourceValue s 2 m).toNat else s.ip + 3 }
  | .jf c m _ =>
    s.len ≤ t.len ∧ t = { s with
      len := t.len, ip := if sourceValue s 1 c = 0 then (sourceValue s 2 m).toNat else s.ip + 3 }
  | .lt s1 s2 d _ =>
    StoredAt s t (destinationAddress s 3 d) (if sourceValue s 1 s1 < sourceValue s 2 s2 then 1 else 0) 4
  | .eq s1 s2 d _ =>
    StoredAt s t (destinationAddress s 3 d) (if sourceValue s 1 s1 = sourceValue s 2 s2 then 1 else 0) 4
  | .arb m _ => s.len ≤ t.len ∧ t = { s with len := t.len, rb := s.rb + sourceValue s 1 m, ip := s.ip + 2 }
  | .hlt _ => t = { s with status := .halted }

/-! ### Each body ends with its effect or its first failing check -/

/-- The state a body leaves may be described more weakly; its trap stays. -/
theorem Ends.mono {r : Res Unit} {s : State} {fault : Option FaultRecord} {done done' : State → Prop}
    (h : Ends r s fault done) (hd : ∀ t, done t → done' t) : Ends r s fault done' := by
  cases fault with
  | none => obtain ⟨t, e, d⟩ := h; exact ⟨t, e, hd t d⟩
  | some f => exact h

/-- ADD and MUL: the store comes after the range check of the result. -/
theorem checkedThreeOperand_ends (w : Int) (s1 s2 d : Mode) (rest : Nat) (op : Int → Int → Int) (s : State) :
    Ends (threeOperand w s1 s2 d rest (fun a b s => checkFits w (op a b) s) s) s
      (firstOf (threeOperandFaults s w s1 s2 d rest ++ [overflowFault w (op (sourceValue s 1 s1) (sourceValue s 2 s2))]))
      (fun t => StoredAt s t (destinationAddress s 3 d) (op (sourceValue s 1 s1) (sourceValue s 2 s2)) 4) :=
  threeOperand_ends w s1 s2 d rest _ s _ _ fun _ dst h below =>
    (checkFits_resolves w _ h).thenEnds fun _ _ g => memWrite_ends g dst _ 4 below

/-- LT and EQ have no check of their own. -/
theorem truthThreeOperand_ends (w : Int) (s1 s2 d : Mode) (rest : Nat) (p : Int → Int → Bool) (s : State) :
    Ends (threeOperand w s1 s2 d rest (fun a b s => .ok (truth (p a b)) s) s) s
      (firstOf (threeOperandFaults s w s1 s2 d rest))
      (fun t => StoredAt s t (destinationAddress s 3 d) (truth (p (sourceValue s 1 s1) (sourceValue s 2 s2))) 4) := by
  have h := threeOperand_ends w s1 s2 d rest (fun a b s => .ok (truth (p a b)) s) s []
    (truth (p (sourceValue s 1 s1) (sourceValue s 2 s2))) fun _ dst h below => memWrite_ends h dst _ 4 below
  rwa [List.append_nil] at h

theorem execInp_ends (d : Mode) (rest : Nat) (s : State) :
    Ends ((writeOperand (encode (.inp d rest)) 1 d s).andThen fun dst s =>
      (checkLeftover (encode (.inp d rest)) rest s).andThen fun _ s => takeInput dst s) s
      (firstFault (.inp d rest) s) (Effect (.inp d rest) s) := by
  refine (writeOperand_resolves _ 1 d (OnlyGrown.refl s)).thenEnds fun hd _ g1 =>
    (checkLeftover_resolves _ rest g1).thenEnds fun _ u g => ?_
  cases hq : s.inq with
  | nil =>
    rw [takeInput_of_nil g _ hq]
    obtain ⟨n, hn, rfl⟩ := g.eq_withLen
    exact Ends.commit (.inl ⟨hq, hn, rfl⟩)
  | cons v tail =>
    obtain ⟨t, e, hi, st⟩ := takeInput_of_cons g _ v tail hq (destination_below s _ 1 d hd)
    rw [e]
    exact Ends.commit (.inr ⟨v, tail, hq, hi, st⟩)

theorem execOut_ends (m : Mode) (rest : Nat) (s : State) :
    Ends ((readOperand (encode (.out m rest)) 1 m s).andThen fun v s =>
      (checkLeftover (encode (.out m rest)) rest s).andThen fun _ s =>
        .ok () (({ s with out := v }).advance 2 |>.stop .haveOutput)) s
      (firstFault (.out m rest) s) (Effect (.out m rest) s) := by
  refine (readOperand_resolves _ 1 m (OnlyGrown.refl s)).thenEnds fun _ _ g1 =>
    (checkLeftover_resolves _ rest g1).thenEnds fun _ u g => ?_
  obtain ⟨n, hn, rfl⟩ := g.eq_withLen
  exact Ends.commit ⟨hn, rfl⟩

theorem execArb_ends (m : Mode) (rest : Nat) (s : State) :
    Ends ((readOperand (encode (.arb m rest)) 1 m s).andThen fun v s =>
      (checkLeftover (encode (.arb m rest)) rest s).andThen fun _ s =>
        (checkFits (encode (.arb m rest)) (s.rb + v) s).andThen fun r s => .ok () ({ s with rb := r }.advance 2)) s
      (firstFault (.arb m rest) s) (Effect (.arb m rest) s) := by
  refine (readOperand_resolves _ 1 m (OnlyGrown.refl s)).thenEnds fun _ _ g1 =>
    (checkLeftover_resolves _ rest g1).thenEnds fun _ u g => ?_
  have base : u.rb = s.rb := by obtain ⟨n, -, rfl⟩ := g.eq_withLen; rfl
  rw [base]
  refine (checkFits_resolves _ _ g).thenEnds fun _ _ g => ?_
  obtain ⟨n, hn, rfl⟩ := g.eq_withLen
  exact Ends.commit ⟨hn, rfl⟩

theorem execHlt_ends (rest : Nat) (s : State) :
    Ends ((checkLeftover (encode (.hlt rest)) rest s).andThen fun _ s => .ok () (s.stop .halted)) s
      (firstFault (.hlt rest) s) (Effect (.hlt rest) s) := by
  simp only [firstFault, leftoverFault, checkLeftover]
  by_cases h : rest = 0
  · subst h; exact ⟨_, rfl, rfl⟩
  · rw [if_neg h, bne_iff_ne.mpr h]; exact Ends.trap (OnlyGrown.refl s) _ _

/-! ### The instruction -/

/-- Every instruction has its effect where no check fails, and takes the first failing check's fault otherwise. -/
theorem exec_spec (i : Instr) (s : State) :
    (firstFault i s = none → ∃ t, exec i s = .next t ∧ Effect i s t) ∧
      ∀ c n, firstFault i s = some (c, n) → TakesFault (exec i s) s c n := by
  cases i with
  | add s1 s2 d rest => exact (checkedThreeOperand_ends _ s1 s2 d rest (· + ·) s).outcome
  | mul s1 s2 d rest => exact (checkedThreeOperand_ends _ s1 s2 d rest (· * ·) s).outcome
  | inp d rest => exact (execInp_ends d rest s).outcome
  | out m rest => exact (execOut_ends m rest s).outcome
  | jt c m rest =>
    refine Ends.outcome ((jumpWhen_ends _ c m rest (fun cond => cond != 0) s).mono fun t h => ?_)
    simp only [bne_iff_ne] at h
    exact h
  | jf c m rest =>
    refine Ends.outcome ((jumpWhen_ends _ c m rest (fun cond => cond == 0) s).mono fun t h => ?_)
    simp only [beq_iff_eq] at h
    exact h
  | lt s1 s2 d rest =>
    refine Ends.outcome ((truthThreeOperand_ends _ s1 s2 d rest (fun a b => decide (a < b)) s).mono fun t h => ?_)
    simp only [truth, decide_eq_true_eq] at h
    exact h
  | eq s1 s2 d rest =>
    refine Ends.outcome ((truthThreeOperand_ends _ s1 s2 d rest (fun a b => decide (a = b)) s).mono fun t h => ?_)
    simp only [truth, decide_eq_true_eq] at h
    exact h
  | arb m rest => exact (execArb_ends m rest s).outcome
  | hlt rest => exact (execHlt_ends rest s).outcome

/-- What an instruction leaves: its effect where no check fails, or the fault entry of the state before it. -/
theorem exec_cases {i : Instr} {s t : State} (h : stateAfter (exec i s) = some t) :
    (firstFault i s = none ∧ Effect i s t) ∨ ∃ c n, FaultEntry s t c n := by
  cases hf : firstFault i s with
  | none =>
    obtain ⟨u, e, he⟩ := (exec_spec i s).1 hf
    rw [e] at h
    cases h
    exact .inl ⟨rfl, he⟩
  | some f =>
    obtain ⟨u, e, he⟩ := (exec_spec i s).2 f.1 f.2 hf
    rw [e] at h
    cases h
    exact .inr ⟨f.1, f.2, he⟩

/-- Where no check fails nothing is left over above the mode digits (rule R59). -/
theorem leftover_eq_zero_of_firstFault {i : Instr} {s : State} (h : firstFault i s = none) : i.leftover = 0 := by
  have none_left : leftoverFault (encode i) i.leftover = none := by
    cases i <;> simp_all [firstFault, firstOf_eq_none, threeOperandFaults, jumpFaults, Instr.leftover]
  simpa [leftoverFault, failing_eq_none] using none_left

/-! ### What each instruction writes -/

/-- Settles O27: a store changes its cell only, and every other effect and every fault keeps the memory. -/
theorem onlyTheDestinationCellChanges : Obligations.OnlyTheDestinationCellChanges := by
  intro i s t ht b hb
  have stored : ∀ (u : State) a v n, u.mem = s.mem → StoredAt u t a v n → some a ≠ some b → t.mem.read b = s.mem.read b := by
    intro u a v n hm ⟨_, _, read⟩ hab
    rw [read b, if_neg fun e => hab (congrArg some e.symm), hm]
  obtain ⟨-, he⟩ | ⟨c, n, hf, -⟩ := exec_cases ht
  · cases i with
    | add | mul | lt | eq => exact stored s _ _ _ rfl he hb
    | inp d rest =>
      rcases he with ⟨-, -, e⟩ | ⟨v, tail, -, -, st⟩
      · rw [e]
      · exact stored { s with inq := tail } _ _ _ rfl st hb
    | out | jt | jf | arb => rw [he.2]
    | hlt => rw [he]
  · rw [hf]

/-- Settles O28: among the effects only ARB's writes RB, and no fault does. -/
theorem onlyArbWritesTheRelativeBase : Obligations.OnlyArbWritesTheRelativeBase := by
  intro i s t ht hne
  obtain ⟨h0, he⟩ | ⟨c, n, hf, -⟩ := exec_cases ht
  · cases i with
    | arb m rest =>
      obtain rfl : rest = 0 := leftover_eq_zero_of_firstFault h0
      exact ⟨m, rfl, congrArg State.rb he.2⟩
    | add | mul | lt | eq => exact absurd (congrArg State.rb he.1) hne
    | inp d rest =>
      rcases he with ⟨-, -, e⟩ | ⟨v, tail, -, -, e, -⟩ <;> exact absurd (congrArg State.rb e) hne
    | out | jt | jf => exact absurd (congrArg State.rb he.2) hne
    | hlt => exact absurd (congrArg State.rb he) hne
  · exact absurd (congrArg State.rb hf) hne

/-- Settles O29: among the effects only that of an IN with an input writes INQ, and no fault does. -/
theorem onlyInConsumesInput : Obligations.OnlyInConsumesInput := by
  intro i s t ht hne
  obtain ⟨h0, he⟩ | ⟨c, n, hf, -⟩ := exec_cases ht
  · cases i with
    | inp d rest =>
      obtain rfl : rest = 0 := leftover_eq_zero_of_firstFault h0
      rcases he with ⟨-, -, e⟩ | ⟨v, tail, hq, hi, -, -, read⟩
      · exact absurd (congrArg State.inq e) hne
      · exact ⟨d, v, rfl, by rw [hq, hi], by rw [read, if_pos rfl]⟩
    | add | mul | lt | eq => exact absurd (congrArg State.inq he.1) hne
    | out | jt | jf | arb => exact absurd (congrArg State.inq he.2) hne
    | hlt => exact absurd (congrArg State.inq he) hne
  · exact absurd (congrArg State.inq hf) hne

/-- Settles O30: among the effects only OUT's writes OUT, and no fault does. -/
theorem onlyOutWritesTheOutputRegister : Obligations.OnlyOutWritesTheOutputRegister := by
  intro i s t ht hne
  obtain ⟨h0, he⟩ | ⟨c, n, hf, -⟩ := exec_cases ht
  · cases i with
    | out m rest =>
      obtain rfl : rest = 0 := leftover_eq_zero_of_firstFault h0
      exact ⟨m, rfl, congrArg State.out he.2, congrArg State.status he.2⟩
    | add | mul | lt | eq => exact absurd (congrArg State.out he.1) hne
    | inp d rest =>
      rcases he with ⟨-, -, e⟩ | ⟨v, tail, -, -, e, -⟩ <;> exact absurd (congrArg State.out e) hne
    | jt | jf | arb => exact absurd (congrArg State.out he.2) hne
    | hlt => exact absurd (congrArg State.out he) hne
  · exact absurd (congrArg State.out hf) hne

/-- Settles O32: IP is read off each effect. -/
theorem instructionPointerAfterEachInstruction : Obligations.InstructionPointerAfterEachInstruction := by
  intro i s t h0 ht
  obtain ⟨u, e, he⟩ := (exec_spec i s).1 h0
  rw [ht] at e
  cases e
  cases i with
  | add | mul | lt | eq => exact congrArg State.ip he.1
  | inp d rest =>
    rcases he with ⟨hq, -, e⟩ | ⟨v, tail, hq, -, e, -⟩ <;> simpa [hq] using congrArg State.ip e
  | out | jt | jf | arb => exact congrArg State.ip he.2
  | hlt => cases he; rfl

end Sys2Proof.Machine
end

section
/-!
PROOFS. Memory (20_memory.md): a canonical memory is determined by its cells (rule R36), what MemRead and MemWrite do below
and past MEM_CAP (rules R32, R33, R35), and what the next fetch makes of a stored or poked word (rules R43, R45, R46).
-/

namespace Sys2Proof.Machine

/-! ### Canonical memories -/

/-- A listed cell reads its value, in a list with rising addresses. -/
theorem Memory.read_of_mem {m : Memory} (h : m.Pairwise fun x y => x.1 < y.1) {c : Nat × Int} (hc : c ∈ m) :
    m.read c.1 = c.2 := by
  induction m with
  | nil => cases hc
  | cons d rest ih =>
    obtain ⟨hhead, htail⟩ := List.pairwise_cons.mp h
    rcases List.mem_cons.mp hc with rfl | hc
    · exact if_pos rfl
    · exact (if_neg (hhead c hc).ne').trans (ih htail hc)

/-- A canonical memory lists exactly the cells that do not read 0. -/
theorem Memory.wf.mem_iff {m : Memory} (h : m.wf) (c : Nat × Int) : c ∈ m ↔ m.read c.1 = c.2 ∧ c.2 ≠ 0 := by
  constructor
  · exact fun hc => ⟨Memory.read_of_mem h.1 hc, h.2 c hc⟩
  · rintro ⟨hr, hz⟩
    have listed := (Memory.read_cases m c.1).resolve_left (hr ▸ hz)
    rwa [hr] at listed

/-- Settles O12: the cells that do not read 0 are the members, and a strictly rising list is determined by its members. -/
theorem canonicalMemoriesWithEqualCellsAreEqual : Obligations.CanonicalMemoriesWithEqualCellsAreEqual := by
  intro m n hm hn h
  have irrefl : Std.Irrefl fun x y : Nat × Int => x.1 < y.1 := ⟨fun c => lt_irrefl c.1⟩
  have antisymm : Std.Antisymm fun x y : Nat × Int => x.1 < y.1 := ⟨fun _ _ hxy hyx => absurd hxy hyx.not_gt⟩
  exact hm.1.eq_of_mem_iff hn.1 fun c => by rw [hm.mem_iff, hn.mem_iff, h]

/-! ### MemRead and MemWrite -/

theorem memRead_of_below {a : Nat} {s : State} (h : s.cfg.memCap.below a = true) :
    memRead a s = .ok (s.mem.read a) (s.grow a) := if_pos h

theorem memRead_of_not_below {a : Nat} {s : State} (h : s.cfg.memCap.below a = false) :
    memRead a s = .trap .memoryExhausted a s := by rw [memRead_eq, h]; rfl

theorem memWrite_of_below {a : Nat} {v : Int} {s : State} (h : s.cfg.memCap.below a = true) :
    memWrite a v s = .ok () { s.grow a with mem := s.mem.write a v } := if_pos h

theorem memWrite_of_not_below {a : Nat} {v : Int} {s : State} (h : s.cfg.memCap.below a = false) :
    memWrite a v s = .trap .memoryExhausted a s := by rw [memWrite_eq, h]; rfl

theorem checkCapacity_of_not_below {a : Nat} {s : State} (h : s.cfg.memCap.below a = false) :
    checkCapacity a s = .trap .memoryExhausted a s := by rw [checkCapacity, h]; rfl

/-- Growth in the words of rule R32: LEN becomes a + 1 where a is at or past it. -/
theorem State.grow_eq (s : State) (a : Nat) : s.grow a = { s with len := if s.len ≤ a then a + 1 else s.len } := by
  have len_eq : max s.len (a + 1) = if s.len ≤ a then a + 1 else s.len := by split <;> omega
  rw [State.grow, len_eq]

/-- An access below LEN grows nothing. -/
theorem State.grow_of_lt {s : State} {a : Nat} (h : a < s.len) : s.grow a = s := by
  rw [State.grow_eq, if_neg (Nat.not_le.mpr h)]

/-- A cell at or past LEN reads 0 where every listed cell is below LEN (rule R12). -/
theorem Memory.read_of_len_le {m : Memory} {n a : Nat} (h : ∀ c ∈ m, c.1 < n) (ha : n ≤ a) : m.read a = 0 :=
  Memory.read_of_unlisted m a fun c hc => (lt_of_lt_of_le (h c hc) ha).ne

/-- Settles O8: below MEM_CAP a read is the cell and growth, and an unlisted cell reads 0. -/
theorem memReadReturnsTheCellAndGrows : Obligations.MemReadReturnsTheCellAndGrows := by
  intro a s
  refine ⟨fun hb => ?_, fun hb listed hl => ?_, memRead_of_not_below⟩
  · rw [memRead_of_below hb, State.grow_eq]
  · rw [memRead_of_below hb, State.grow_eq, if_pos hl, Memory.read_of_len_le listed hl]

/-- Settles O9: below MEM_CAP a write changes its cell only, so the cells between the old end and it still read 0. -/
theorem memWriteStoresOneCell : Obligations.MemWriteStoresOneCell := by
  intro a v s
  refine ⟨fun hb => ⟨s.mem.write a v, ?_, fun b => Memory.read_write s.mem a b v, fun listed b hl hlt => ?_⟩,
    memWrite_of_not_below⟩
  · rw [memWrite_of_below hb, State.grow_eq]
  · rw [Memory.read_write, if_neg hlt.ne, Memory.read_of_len_le listed hl]

/-! ### Fetch, and a step that fetches -/

theorem fetch_of_not_below {s : State} (h : s.cfg.memCap.below s.ip = false) :
    fetch s = .trap .memoryExhausted s.ip s := by rw [fetch, memRead_of_not_below h]; rfl

theorem fetch_of_decode_ok {s : State} {i : Instr} (hb : s.cfg.memCap.below s.ip = true)
    (hd : decode (s.mem.read s.ip) = .ok i) : fetch s = .ok i (s.grow s.ip) := by
  rw [fetch, memRead_of_below hb, Res.andThen_ok]
  simp only [hd]

theorem fetch_of_decode_error {s : State} {e : DecodeError} (hb : s.cfg.memCap.below s.ip = true)
    (hd : decode (s.mem.read s.ip) = .error e) :
    fetch s = .trap .illegalOpcode (s.mem.read s.ip) (s.grow s.ip) := by
  rw [fetch, memRead_of_below hb, Res.andThen_ok]
  simp only [hd]

theorem engineStep_of_fetch_ok {s t : State} {i : Instr} (h : fetch s = .ok i t) : engineStep s = exec i t := by
  rw [engineStep, h]

theorem engineStep_of_fetch_trap {s t : State} {c : Cause} {n : Int} (h : fetch s = .trap c n t) :
    engineStep s = t.faultOut c n := by
  rw [engineStep, h]

/-- A run that can start or is in progress makes a `Step` (rule R130). -/
theorem step_of_canRun {s : State} (h : s.CanRun) : step s = engineStep s.startRun := by
  obtain ⟨hh, hf⟩ := h
  cases hs : s.status
  case halted => exact absurd hs hh
  case faulted => exact absurd hs hf
  all_goals simp only [step, runStep, hs]

/-- A run in progress is not started again. -/
theorem State.startRun_of_running {s : State} (h : s.status = .running) : s.startRun = s := by rw [State.startRun, ← h]

/-- The next step runs the instruction that the word at IP decodes to (rule R131). -/
theorem step_of_decode_ok {s : State} {i : Instr} (hr : s.CanRun) (hb : s.cfg.memCap.below s.ip = true)
    (hd : decode (s.mem.read s.ip) = .ok i) : step s = exec i (s.startRun.grow s.ip) := by
  rw [step_of_canRun hr]
  exact engineStep_of_fetch_ok (fetch_of_decode_ok (s := s.startRun) hb hd)

/-- The next step faults on a word at IP that decodes to no instruction (rules R52, R58). -/
theorem step_of_decode_error {s : State} {e : DecodeError} (hr : s.CanRun) (hb : s.cfg.memCap.below s.ip = true)
    (hd : decode (s.mem.read s.ip) = .error e) : TakesFault (step s) s .illegalOpcode (s.mem.read s.ip) := by
  rw [step_of_canRun hr, engineStep_of_fetch_trap (fetch_of_decode_error (s := s.startRun) hb hd)]
  exact ⟨_, rfl, rfl, le_max_left _ _⟩

/-- The next step faults where IP is at or past MEM_CAP (rule R35); nothing has grown. -/
theorem step_of_not_below {s : State} (hr : s.CanRun) (hb : s.cfg.memCap.below s.ip = false) :
    step s = s.faultOut .memoryExhausted s.ip := by
  rw [step_of_canRun hr, engineStep_of_fetch_trap (fetch_of_not_below (s := s.startRun) hb)]
  rfl

/-! ### peek and poke -/

theorem hostOp_peek {s : State} (fuel a : Nat) (hr : s.status ≠ .running) (hf : s.status ≠ .faulted) :
    hostOp fuel (.peek a) s = peek a s := hostOp_eq_performOp hr fun hs => absurd hs hf

theorem hostOp_poke {s : State} (fuel a : Nat) (v : Int) (hr : s.status ≠ .running) (hf : s.status ≠ .faulted) :
    hostOp fuel (.poke a v) s = poke a v s := hostOp_eq_performOp hr fun hs => absurd hs hf

theorem peek_of_not_below {a : Nat} {s : State} (h : s.cfg.memCap.below a = false) :
    peek a s = .next (.faulted .memoryExhausted a, s.raise .memoryExhausted a) := by
  rw [peek, memRead_of_not_below h]

/-- A poke below MEM_CAP stores one cell, which exists then, and changes nothing else but LEN (rule R139). -/
theorem poke_of_below {a : Nat} {v : Int} {s : State} (hv : Fits64 v) (h : s.cfg.memCap.below a = true) :
    ∃ t, poke a v s = .next (.done, t) ∧ t = { s with mem := t.mem, len := t.len } ∧ s.len ≤ t.len ∧ a < t.len ∧
      ∀ b, t.mem.read b = if b = a then v else s.mem.read b := by
  refine ⟨{ s.grow a with mem := s.mem.write a v }, ?_, rfl, le_max_left _ _, lt_max_of_lt_right (Nat.lt_succ_self a),
    fun b => Memory.read_write s.mem a b v⟩
  rw [poke, if_pos hv, memWrite_of_below h]

theorem poke_of_not_below {a : Nat} {v : Int} {s : State} (hv : Fits64 v) (h : s.cfg.memCap.below a = false) :
    poke a v s = .next (.faulted .memoryExhausted a, s.raise .memoryExhausted a) := by
  rw [poke, if_pos hv, memWrite_of_not_below h]

/-- Settles O10: each access past MEM_CAP traps before it touches anything, and an infinite capacity has no such address. -/
theorem accessPastCapacityIsMemoryExhausted : Obligations.AccessPastCapacityIsMemoryExhausted := by
  refine ⟨fun a s h => ⟨memRead_of_not_below h, fun _ => memWrite_of_not_below h, checkCapacity_of_not_below h, ?_, ?_⟩,
    fun _ => rfl⟩
  · rintro hr rfl
    exact ⟨_, step_of_not_below hr h, rfl, (OnlyGrown.refl s).faultEntry _ _⟩
  · intro hr hf fuel
    refine ⟨?_, fun v hv => ?_⟩
    · rw [hostOp_peek fuel a hr hf, peek_of_not_below h]
    · rw [hostOp_poke fuel a v hr hf, poke_of_not_below hv h]

/-- Settles O49: the poked word is what the cell at IP reads, so the next step runs its instruction; the poke has grown
memory to IP already. -/
theorem pokeIsSeenByTheNextFetch : Obligations.PokeIsSeenByTheNextFetch := by
  intro s w i fuel hrun hr hw hb hd
  obtain ⟨t, hpoke, ht, -, hlt, hread⟩ := poke_of_below hw hb
  have hcfg : t.cfg = s.cfg := (congrArg State.cfg ht :)
  have hip : t.ip = s.ip := (congrArg State.ip ht :)
  have hstatus : t.status = s.status := (congrArg State.status ht :)
  have hword : t.mem.read t.ip = w := by rw [hread, if_pos hip]
  have hrun' : t.CanRun := by rw [State.CanRun, hstatus]; exact hrun
  have hgrown : t.startRun.grow t.ip = t.startRun := State.grow_of_lt (s := t.startRun) (by rw [hip]; exact hlt)
  refine ⟨t, (hostOp_poke fuel _ _ hr hrun.2).trans hpoke, ?_⟩
  rw [step_of_decode_ok hrun' (by rw [hcfg, hip]; exact hb) (by rw [hword]; exact hd), hgrown]
  rfl

/-! ### The store of an instruction -/

/-- A destination that passed the checks is below MEM_CAP (rule R62). -/
theorem storeAddress_below {i : Instr} {s : State} {a : Nat} (hf : firstFault i s = none)
    (ha : storeAddress i s = some a) : s.cfg.memCap.below a = true := by
  cases i with
  | add s1 s2 d rest | mul s1 s2 d rest | lt s1 s2 d rest | eq s1 s2 d rest =>
    cases ha
    exact destination_below s _ 3 d ((firstOf_eq_none _).mp hf _ (.tail _ (.tail _ (.head _))))
  | inp d rest =>
    cases ha
    exact destination_below s _ 1 d ((firstOf_eq_none _).mp hf _ (.head _))
  | out | jt | jf | arb | hlt => cases ha

/-- The effect of an instruction with a destination and a value is that store (rule R43); an IN takes its value off the queue. -/
theorem Effect.storedAt {i : Instr} {s t : State} {a : Nat} {v : Int} (he : Effect i s t)
    (ha : storeAddress i s = some a) (hv : storedValue i s = some v) :
    ∃ q, StoredAt { s with inq := q } t a v (i.operandCount + 1) := by
  cases i with
  | add | mul | lt | eq => cases ha; cases hv; exact ⟨s.inq, he⟩
  | inp d rest =>
    cases ha
    obtain ⟨hq, -⟩ | ⟨u, tail, hq, -, st⟩ := he
    · rw [storedValue, hq] at hv; cases hv
    · rw [storedValue, hq] at hv; cases hv; exact ⟨tail, st⟩
  | out | jt | jf | arb | hlt => cases ha

/-- Settles O42: every store leaves its value in a cell below MEM_CAP, and the next fetch and operand read are of that
memory. -/
theorem storeIsSeenByTheNextFetch : Obligations.StoreIsSeenByTheNextFetch := by
  intro i s a v hs hf ha hv
  obtain ⟨t, ht, he⟩ := (exec_spec i s).1 hf
  obtain ⟨q, hst, -, hread⟩ := he.storedAt ha hv
  have hstatus : t.status = .running := (congrArg State.status hst).trans hs
  have hcfg : t.cfg = s.cfg := (congrArg State.cfg hst :)
  have hip : t.ip = s.ip + (i.operandCount + 1) := congrArg State.ip hst
  have hrun : t.CanRun := by simp [State.CanRun, hstatus]
  have hcell : t.mem.read a = v := (hread a).trans (if_pos rfl)
  have hbelow : t.cfg.memCap.below a = true := by rw [hcfg]; exact storeAddress_below hf ha
  refine ⟨t, ht, hstatus, hip, ?_, ?_, ?_⟩
  · rintro rfl j hj
    rw [step_of_decode_ok hrun hbelow (hcell ▸ hj), State.startRun_of_running hstatus]
    rfl
  · rintro rfl e hj
    have := step_of_decode_error hrun hbelow (hcell ▸ hj)
    rwa [hcell] at this
  · rintro k rfl
    exact ⟨hcell, hcell⟩

end Sys2Proof.Machine
end

section
/-!
PROOFS. The instruction word (30_encoding.md): a word decodes to an instruction exactly when it is that instruction's encoding
(`decode_eq_ok_iff`), because the decimal digits of a number determine it and are determined by it (`modeString_eq_iff`). The
table of rule R57 and the words that raise IllegalOpcode are read off that.
-/

namespace Sys2Proof

/-! ### Mode digits -/

theorem Mode.digit_ofDigit (d : Nat) : (Mode.ofDigit d).digit = d := by
  unfold Mode.ofDigit
  split <;> rfl

theorem Mode.ofDigit_digit {m : Mode} (h : m.isDigit = true) : Mode.ofDigit m.digit = m := by
  cases m with
  | position | immediate | relative => rfl
  | invalid n =>
    have three_le : 3 ≤ n := of_decide_eq_true (Bool.and_elim_left h)
    obtain ⟨k, rfl⟩ := Nat.exists_eq_add_of_le' three_le
    rfl

/-- A mode that stands for a decimal digit is selected by its own digit only (rule R53). -/
theorem Mode.eq_ofDigit_iff {m : Mode} (h : m.isDigit = true) (d : Nat) : m = Mode.ofDigit d ↔ m.digit = d :=
  ⟨fun e => e ▸ Mode.digit_ofDigit d, fun e => e ▸ (Mode.ofDigit_digit h).symm⟩

theorem Mode.digit_lt {m : Mode} (h : m.isDigit = true) : m.digit < 10 := by
  cases m with
  | position | immediate | relative => decide
  | invalid n => exact Nat.lt_succ_of_le (of_decide_eq_true (Bool.and_elim_right h))

theorem Mode.isDigit_ofDigit : ∀ d < 10, (Mode.ofDigit d).isDigit = true := by decide

/-! ### Mode strings -/

/-- The modes of the n lowest digits of v, least significant first (rule R53). -/
def lowModes : Nat → Nat → List Mode
  | 0, _ => []
  | n + 1, v => Mode.ofDigit (v % 10) :: lowModes n (v / 10)

theorem lowModes_isDigit (n v : Nat) : (lowModes n v).all Mode.isDigit = true := by
  induction n generalizing v with
  | zero => rfl
  | succ n ih => simp [lowModes, Mode.isDigit_ofDigit _ (Nat.mod_lt v (by decide)), ih]

/-- The k-th of these modes is that of the k-th digit (rule R53). -/
theorem lowModes_getElem? {n v k : Nat} {m : Mode} (h : (lowModes n v)[k]? = some m) : m.digit = digit k v := by
  induction n generalizing v k with
  | zero => cases h
  | succ n ih =>
    cases k with
    | zero => cases h; simp [Mode.digit_ofDigit, digit]
    | succ k => rw [ih h, digit, digit, Nat.div_div_eq_div_mul, pow_succ']

/-- The modes of up to three operands as the decoder writes them. -/
theorem modeOf_succ (k v : Nat) : modeOf (k + 1) v = Mode.ofDigit (v / 10 ^ k % 10) := rfl

/-- A mode string is the number whose lowest digits are the modes and whose digits above them are the leftover. -/
theorem modeString_eq_iff {ms : List Mode} (h : ms.all Mode.isDigit = true) (rest v : Nat) :
    modeString ms rest = v ↔ ms = lowModes ms.length v ∧ rest = v / 10 ^ ms.length := by
  induction ms generalizing v with
  | nil => simp [modeString, lowModes]
  | cons m ms ih =>
    obtain ⟨hm, hms⟩ : m.isDigit = true ∧ ms.all Mode.isDigit = true := by simpa using h
    have hlt := Mode.digit_lt hm
    have low_and_high : modeString (m :: ms) rest = v ↔ m.digit = v % 10 ∧ modeString ms rest = v / 10 := by
      rw [modeString]; omega
    rw [low_and_high, ih hms, ← Mode.eq_ofDigit_iff hm, List.length_cons, lowModes, pow_succ',
      ← Nat.div_div_eq_div_mul, List.cons.injEq, and_assoc]

/-! ### Instructions and their words -/

theorem Instr.length_modes (i : Instr) : i.modes.length = i.operandCount := by cases i <;> rfl

/-- The ten opcodes (rule R57). -/
theorem Instr.opcode_mem (i : Instr) : i.opcode ∈ [1, 2, 3, 4, 5, 6, 7, 8, 9, 99] := by
  cases i <;> simp [Instr.opcode]

theorem Instr.opcode_lt (i : Instr) : i.opcode < 100 := by cases i <;> simp [Instr.opcode]

/-- The decoder's table: the opcode's instruction, a mode for each operand from the lowest digits, and the rest left over. -/
theorem decodeFields_eq_ok_iff (op v : Nat) (i : Instr) :
    decodeFields op v = .ok i ↔
      i.opcode = op ∧ i.modes = lowModes i.operandCount v ∧ i.leftover = v / 10 ^ i.operandCount := by
  constructor
  · intro h
    unfold decodeFields at h
    split at h <;> cases h <;>
      simp [Instr.opcode, Instr.modes, Instr.leftover, Instr.operandCount, lowModes, modeOf_succ, Nat.div_div_eq_div_mul]
  · rintro ⟨rfl, hm, hl⟩
    cases i <;>
      simp_all [decodeFields, Instr.opcode, Instr.modes, Instr.leftover, Instr.operandCount, lowModes, modeOf_succ,
        Nat.div_div_eq_div_mul]

/-- What the decoder reads of a word (rules R51, R52, R53). -/
theorem decode_eq_ok_iff_digits (w : Int) (i : Instr) :
    decode w = .ok i ↔ 0 ≤ w ∧ i.opcode = w.toNat % 100 ∧ i.modes = lowModes i.operandCount (w.toNat / 100) ∧
      i.leftover = w.toNat / 100 / 10 ^ i.operandCount := by
  unfold decode
  split
  case isTrue h => simp [Int.not_le.mpr h]
  case isFalse h => rw [decodeFields_eq_ok_iff]; simp [Int.not_lt.mp h]

/-- A word decodes to an instruction exactly when it is the encoding of that instruction and its modes are digits. -/
theorem decode_eq_ok_iff (w : Int) (i : Instr) : decode w = .ok i ↔ i.encodable = true ∧ encode i = w := by
  have hop := i.opcode_lt
  rw [decode_eq_ok_iff_digits, ← i.length_modes]
  constructor
  · rintro ⟨hw, ho, hm, hl⟩
    have he : i.modes.all Mode.isDigit = true := hm ▸ lowModes_isDigit _ _
    have hs := (modeString_eq_iff he i.leftover _).mpr ⟨hm, hl⟩
    exact ⟨he, by rw [encode, ho, hs]; omega⟩
  · rintro ⟨he, rfl⟩
    have hs : modeString i.modes i.leftover = (encode i).toNat / 100 := by rw [encode]; omega
    exact ⟨by rw [encode]; omega, by rw [encode]; omega, (modeString_eq_iff he i.leftover _).mp hs⟩

/-! ### Valid instructions -/

theorem Mode.isDigit_of_validSource {m : Mode} (h : m.validSource = true) : m.isDigit = true := by
  cases m with
  | position | immediate | relative => rfl
  | invalid => cases h

theorem Mode.isDigit_of_validDestination {m : Mode} (h : m.validDestination = true) : m.isDigit = true := by
  cases m with
  | position | relative => rfl
  | immediate | invalid => cases h

/-- A valid instruction has modes that digits select (rules R54, R56). -/
theorem Instr.encodable_of_wellFormed {i : Instr} (h : i.wellFormed = true) : i.encodable = true := by
  cases i <;>
    simp_all [Instr.wellFormed, Instr.encodable, Instr.modes, Mode.isDigit_of_validSource, Mode.isDigit_of_validDestination]

/-- The modes of a source (rule R56). -/
def sourceModes : List Mode := [.position, .immediate, .relative]

/-- The modes of a destination (rule R56). -/
def destinationModes : List Mode := [.position, .relative]

theorem mem_sourceModes (m : Mode) : m ∈ sourceModes ↔ m.validSource = true := by
  cases m <;> simp [sourceModes, Mode.validSource]

theorem mem_destinationModes (m : Mode) : m ∈ destinationModes ↔ m.validDestination = true := by
  cases m <;> simp [destinationModes, Mode.validDestination]

/-- The valid forms of a three-operand instruction, in the order of rule R57's table. -/
def validThree (f : Mode → Mode → Mode → Nat → Instr) : List Instr :=
  destinationModes.flatMap fun d => sourceModes.flatMap fun s2 => sourceModes.map fun s1 => f s1 s2 d 0

/-- The valid forms of a jump, in the order of rule R57's table. -/
def validTwo (f : Mode → Mode → Nat → Instr) : List Instr :=
  sourceModes.flatMap fun t => sourceModes.map fun c => f c t 0

/-- The valid instructions, in the order of rule R57's table. -/
def validInstrs : List Instr :=
  validThree .add ++ validThree .mul ++ destinationModes.map (Instr.inp · 0) ++ sourceModes.map (Instr.out · 0) ++
    validTwo .jt ++ validTwo .jf ++ validThree .lt ++ validThree .eq ++ sourceModes.map (Instr.arb · 0) ++ [.hlt 0]

theorem mem_validInstrs (i : Instr) : i ∈ validInstrs ↔ i.wellFormed = true := by
  cases i <;>
    simp [validInstrs, validThree, validTwo, Instr.wellFormed, mem_sourceModes, mem_destinationModes] <;> tauto

/-- The table of rule R57 lists their words. -/
theorem validWords_eq_map_encode : Machine.validWords = validInstrs.map encode := by decide

/-! ### The obligations -/

/-- Settles O1: the digits of an encoding are the instruction's, which determine it. -/
theorem decodeOfEncodeIsTheInstruction : Obligations.DecodeOfEncodeIsTheInstruction :=
  ⟨fun i h => (decode_eq_ok_iff _ i).mpr ⟨h, rfl⟩, fun _ => Instr.encodable_of_wellFormed⟩

/-- Settles O2: the other direction of the same equivalence. -/
theorem encodeOfDecodeIsTheWord : Obligations.EncodeOfDecodeIsTheWord :=
  fun w i h => ((decode_eq_ok_iff w i).mp h).symm

/-- Settles O3: what the decoder reads, for a word that is a natural number. -/
theorem decodeReadsTheDecimalDigits : Obligations.DecodeReadsTheDecimalDigits := by
  intro w i h
  obtain ⟨hw, ho, hm, hl⟩ := (decode_eq_ok_iff_digits w i).mp h
  lift w to Nat using hw
  rw [Int.toNat_natCast] at ho hm hl
  refine ⟨Int.natCast_nonneg w, by exact_mod_cast ho, i.length_modes, fun k m hk => ?_, by exact_mod_cast hl⟩
  exact_mod_cast lowModes_getElem? (hm ▸ hk)

/-- Settles O4: a word decodes to a valid instruction exactly when it is the word of one, and the table lists these. -/
theorem validWordsAreTheTableOfR57 : Obligations.ValidWordsAreTheTableOfR57 := by
  intro w
  rw [validWords_eq_map_encode, List.mem_map]
  refine exists_congr fun i => ?_
  rw [decode_eq_ok_iff, mem_validInstrs]
  exact ⟨fun ⟨⟨_, he⟩, hv⟩ => ⟨hv, he⟩, fun ⟨hv, he⟩ => ⟨⟨Instr.encodable_of_wellFormed hv, he⟩, hv⟩⟩

/-- Settles O6: a word that decodes is not negative and has one of the ten opcodes, so this one does not decode. -/
theorem illegalWordRaisesIllegalOpcode : Obligations.IllegalWordRaisesIllegalOpcode := by
  intro s hrun hb hw
  cases hd : decode (s.mem.read s.ip) with
  | error e => exact Machine.step_of_decode_error hrun hb hd
  | ok i =>
    obtain ⟨hpos, hop, -⟩ := decodeReadsTheDecimalDigits _ i hd
    have hmem := List.mem_map_of_mem (f := Int.ofNat) i.opcode_mem
    exact absurd hw (not_or.mpr ⟨Int.not_lt.mpr hpos, not_not.mpr (hop ▸ hmem)⟩)

end Sys2Proof
end

section
/-!
PROOFS. The checks of an instruction (rules R59 to R65): when each passes, when all of an instruction's pass (rule R195), and
that it completes exactly then and otherwise takes the fault of the first that fails (rules R160, R175). An instruction whose
checks pass is valid, so a step that fetches any other word faults (rule R66).
-/

namespace Sys2Proof.Machine

/-! ### When one check passes -/

theorem addressFault_eq_none {s : State} {m : Mode} (w : Int) (k : Nat) (h : m ≠ .immediate) :
    addressFault s w k m = none ↔ OperandReaches s k m := by
  simp only [addressFault, firstOf_eq_none, List.forall_mem_cons, failing_eq_none, OperandReaches, Bool.not_eq_false',
    decide_eq_false_iff_not, not_and_not_right, not_lt]
  simp [h]

theorem sourceFault_eq_none (s : State) (w : Int) (k : Nat) (m : Mode) :
    sourceFault s w k m = none ↔ m.validSource = true ∧ OperandReaches s k m := by
  cases m with
  | position | relative => simp [sourceFault, Mode.validSource, addressFault_eq_none]
  | immediate => simp [sourceFault, Mode.validSource, OperandReaches, failing_eq_none]
  | invalid => simp [sourceFault, Mode.validSource]

theorem destinationFault_eq_none (s : State) (w : Int) (k : Nat) (m : Mode) :
    destinationFault s w k m = none ↔ m.validDestination = true ∧ OperandReaches s k m := by
  cases m with
  | position | relative => simp [destinationFault, Mode.validDestination, addressFault_eq_none]
  | immediate | invalid => simp [destinationFault, Mode.validDestination]

theorem leftoverFault_eq_none (w : Int) (rest : Nat) : leftoverFault w rest = none ↔ rest = 0 := by
  simp [leftoverFault, failing_eq_none]

theorem overflowFault_eq_none (w r : Int) : overflowFault w r = none ↔ Fits64 r := by
  rw [overflowFault, failing_eq_none, decide_eq_false_iff_not, not_not]

theorem targetFault_eq_none (taken : Bool) (target : Int) :
    targetFault taken target = none ↔ (taken = true → 0 ≤ target) := by
  simp [targetFault, failing_eq_none]

/-! ### When all checks of an instruction pass -/

/-- The four checks of a three-operand instruction before its own. -/
theorem threeOperandFaults_pass (s : State) (w : Int) (s1 s2 d : Mode) (rest : Nat) :
    (∀ x ∈ threeOperandFaults s w s1 s2 d rest, x = none) ↔
      s1.validSource = true ∧ s2.validSource = true ∧ d.validDestination = true ∧ rest = 0 ∧
        OperandReaches s 1 s1 ∧ OperandReaches s 2 s2 ∧ OperandReaches s 3 d := by
  simp only [threeOperandFaults, List.forall_mem_cons, List.not_mem_nil, sourceFault_eq_none, destinationFault_eq_none,
    leftoverFault_eq_none]
  tauto

/-- The three checks of a jump before its own. -/
theorem jumpFaults_pass (s : State) (w : Int) (c t : Mode) (rest : Nat) :
    (∀ x ∈ jumpFaults s w c t rest, x = none) ↔
      (c.validSource = true ∧ rest = 0 ∧ OperandReaches s 1 c) ∧ t.validSource = true ∧ OperandReaches s 2 t := by
  simp only [jumpFaults, List.forall_mem_cons, List.not_mem_nil, sourceFault_eq_none, leftoverFault_eq_none]
  tauto

/-- One more check at the end of a list. -/
theorem firstOf_append_eq_none (l : List (Option FaultRecord)) (x : Option FaultRecord) :
    firstOf (l ++ [x]) = none ↔ (∀ y ∈ l, y = none) ∧ x = none := by
  simp [firstOf_eq_none, or_imp, forall_and]

/-- Settles O23: the operand checks and the leftover check pass, and for ADD and MUL the range check of the result. -/
theorem threeOperandChecksPassExactlyWhen : Obligations.ThreeOperandChecksPassExactlyWhen := by
  intro s1 s2 d rest s
  refine ⟨?_, ?_, ?_, ?_⟩
  · rw [firstFault, firstOf_append_eq_none, threeOperandFaults_pass, overflowFault_eq_none]
  · rw [firstFault, firstOf_append_eq_none, threeOperandFaults_pass, overflowFault_eq_none]
  · rw [firstFault, firstOf_eq_none, threeOperandFaults_pass]
  · rw [firstFault, firstOf_eq_none, threeOperandFaults_pass]

/-- Settles O24: for a jump the operand checks and the sign of a taken target, for the others each check of its list. -/
theorem otherChecksPassExactlyWhen : Obligations.OtherChecksPassExactlyWhen := by
  intro m n rest s
  refine ⟨?inp, ?out, ?arb, ?jt, ?jf, leftoverFault_eq_none _ rest⟩
  case inp | out | arb =>
    simp only [firstFault, firstOf_eq_none, List.forall_mem_cons, List.not_mem_nil, sourceFault_eq_none,
      destinationFault_eq_none, leftoverFault_eq_none, overflowFault_eq_none]
    tauto
  case jt =>
    rw [firstFault, firstOf_append_eq_none, jumpFaults_pass, targetFault_eq_none, bne_iff_ne]
  case jf =>
    rw [firstFault, firstOf_append_eq_none, jumpFaults_pass, targetFault_eq_none, beq_iff_eq]

/-- An instruction whose checks pass is one of the valid ones: each operand's check tests its mode (rule R66). -/
theorem wellFormed_of_firstFault {i : Instr} {s : State} (h : firstFault i s = none) : i.wellFormed = true := by
  cases i <;>
    simp_all [firstFault, firstOf_eq_none, threeOperandFaults, jumpFaults, sourceFault_eq_none, destinationFault_eq_none,
      leftoverFault_eq_none, Instr.wellFormed]

/-! ### An instruction completes or takes the fault of its first failing check -/

/-- An outcome is one fault only. -/
theorem TakesFault.unique {x : Host.Outcome State Fault Refusal} {s : State} {c d : Cause} {n m : Int}
    (h : TakesFault x s c n) (h' : TakesFault x s d m) : (c, n) = (d, m) := by
  obtain ⟨t, rfl, ht, -⟩ := h
  obtain ⟨u, hu, ht', -⟩ := h'
  cases hu
  rw [ht'] at ht
  exact Prod.ext (congrArg State.cause ht).symm (congrArg State.info ht).symm

/-- A fault is no next state (rule R160). -/
theorem TakesFault.ne_next {x : Host.Outcome State Fault Refusal} {s : State} {c : Cause} {n : Int}
    (h : TakesFault x s c n) (t : State) : x ≠ .next t := by
  obtain ⟨u, rfl, -⟩ := h
  exact nofun

/-- Settles O25: both directions of `exec_spec`, since a fault is no next state and one fault only. -/
theorem anInstructionCompletesExactlyWhenNoCheckFails : Obligations.AnInstructionCompletesExactlyWhenNoCheckFails := by
  intro i s
  obtain ⟨completes, faults⟩ := exec_spec i s
  cases hf : firstFault i s with
  | none =>
    obtain ⟨t, ht, -⟩ := completes hf
    exact ⟨iff_of_true ⟨t, ht⟩ rfl, fun c n => iff_of_false (fun h => h.ne_next t ht) nofun⟩
  | some f =>
    have hx : TakesFault (exec i s) s f.1 f.2 := faults f.1 f.2 hf
    refine ⟨iff_of_false (fun ⟨t, ht⟩ => hx.ne_next t ht) nofun, fun c n => ⟨fun h => ?_, fun h => ?_⟩⟩
    · exact congrArg some (hx.unique h)
    · cases h; exact hx

/-- Settles O26: the instance of a fault is the fault entry of the first failing check. -/
theorem faultsArePrecise : Obligations.FaultsArePrecise := by
  intro i s f hx
  cases hf : firstFault i s with
  | none =>
    obtain ⟨t, ht, -⟩ := (exec_spec i s).1 hf
    rw [hx] at ht
    cases ht
  | some r =>
    obtain ⟨t, ht, he, hlen⟩ := (exec_spec i s).2 r.1 r.2 hf
    rw [hx] at ht
    cases ht
    rw [he]
    exact ⟨_, rfl, rfl, rfl, rfl, rfl, rfl, rfl, rfl, hlen, rfl⟩

/-! ### A step that fetches no valid word -/

/-- A fault of the state in which the fetched instruction runs is that fault of the state before the step. -/
theorem TakesFault.of_fetched {x : Host.Outcome State Fault Refusal} {s : State} {a : Nat} {c : Cause} {n : Int}
    (h : TakesFault x (s.startRun.grow a) c n) : TakesFault x s c n := by
  obtain ⟨t, hx, he, hlen⟩ := h
  exact ⟨t, hx, he, le_trans (le_max_left _ _) hlen⟩

/-- Settles O5: the fetch fails, the word decodes to nothing, or its instruction is not valid and so fails a check. -/
theorem everyOtherWordFaults : Obligations.EveryOtherWordFaults := by
  intro s hrun hw
  cases hb : s.cfg.memCap.below s.ip with
  | false => exact ⟨_, _, step_of_not_below hrun hb ▸ (OnlyGrown.refl s).takesFault _ _⟩
  | true =>
    cases hd : decode (s.mem.read s.ip) with
    | error e => exact ⟨_, _, step_of_decode_error hrun hb hd⟩
    | ok i =>
      have invalid : ¬ i.wellFormed = true := fun hi => hw ((validWordsAreTheTableOfR57 _).mp ⟨i, hd, hi⟩)
      obtain ⟨f, hf⟩ := Option.ne_none_iff_exists'.mp fun h => invalid (wellFormed_of_firstFault h)
      rw [step_of_decode_ok hrun hb hd]
      exact ⟨f.1, f.2, ((exec_spec i _).2 f.1 f.2 hf).of_fetched⟩

end Sys2Proof.Machine
end

section
/-!
PROOFS. ADD and MUL (rules R80, R81): each is its instance of `exec_spec`, whose effect for a three-operand instruction is the
one store of the exact result.
-/

namespace Sys2Proof.Machine

/-- Settles O13: the effect that `exec_spec` gives ADD is the store of the exact sum. -/
theorem addStoresTheExactSum : Obligations.AddStoresTheExactSum :=
  fun s1 s2 d leftover s => exec_spec (.add s1 s2 d leftover) s

/-- Settles O14: the effect that `exec_spec` gives MUL is the store of the exact product. -/
theorem mulStoresTheExactProduct : Obligations.MulStoresTheExactProduct :=
  fun s1 s2 d leftover s => exec_spec (.mul s1 s2 d leftover) s

end Sys2Proof.Machine
end

section
/-!
PROOFS. IN and OUT (41_io.md): each is its instance of `exec_spec` (rules R90, R91). A step that fetches an IN suspends or
stores as that IN does, and an IN that suspended stores the one input added after it (rule R90).
-/

namespace Sys2Proof.Machine

/-! ### The instructions -/

/-- Settles O17: the effect that `exec_spec` gives IN is the suspension exactly where the queue is empty. -/
theorem inTakesTheFrontInputOrSuspends : Obligations.InTakesTheFrontInputOrSuspends := by
  intro d leftover s
  obtain ⟨completes, faults⟩ := exec_spec (.inp d leftover) s
  refine ⟨fun hf v rest hq => ?_, fun hf hq => ?_, faults⟩
  · obtain ⟨t, ht, ⟨hnil, -, -⟩ | ⟨v', rest', hcons, hi, st⟩⟩ := completes hf
    · cases hq.symm.trans hnil
    · cases hq.symm.trans hcons
      exact ⟨t, ht, hi, st⟩
  · obtain ⟨t, ht, ⟨-, hlen, he⟩ | ⟨v, rest, hcons, -, -⟩⟩ := completes hf
    · exact ⟨t, ht, he, hlen⟩
    · cases hq.symm.trans hcons

/-- Settles O18: the effect that `exec_spec` gives OUT is the stop with HaveOutput. -/
theorem outEmitsTheOperand : Obligations.OutEmitsTheOperand :=
  fun s1 leftover s => exec_spec (.out s1 leftover) s

/-! ### A step that fetches an IN -/

/-- The checks of an instruction read neither LEN nor STATUS nor INQ. -/
theorem firstFault_withLenStatusInq (i : Instr) (s : State) (n : Nat) (status : Status) (q : List Int) :
    firstFault i { s with len := n, status := status, inq := q } = firstFault i s := rfl

/-- With an empty queue the step stops with NeedInput; only LEN may have changed besides. -/
theorem step_inp_of_nil {s : State} {d : Mode} {leftover : Nat} (hr : s.CanRun) (hb : s.cfg.memCap.below s.ip = true)
    (hd : decode (s.mem.read s.ip) = .ok (.inp d leftover)) (hf : firstFault (.inp d leftover) s = none)
    (hq : s.inq = []) : ∃ n, step s = .next { s with len := n, status := .needInput } := by
  obtain ⟨t, ht, he, -⟩ := (inTakesTheFrontInputOrSuspends d leftover (s.startRun.grow s.ip)).2.1
    ((firstFault_withLenStatusInq _ s _ _ _).trans hf) hq
  refine ⟨t.len, (step_of_decode_ok hr hb hd).trans (ht.trans ?_)⟩
  rw [he]
  rfl

/-- With an input available the step takes it off the queue and stores it, with the run in progress. -/
theorem step_inp_of_cons {s : State} {d : Mode} {leftover : Nat} {v : Int} {rest : List Int} (hr : s.CanRun)
    (hb : s.cfg.memCap.below s.ip = true) (hd : decode (s.mem.read s.ip) = .ok (.inp d leftover))
    (hf : firstFault (.inp d leftover) s = none) (hq : s.inq = v :: rest) :
    ∃ t, step s = .next t ∧ t.inq = rest ∧
      StoredAt { s.startRun with inq := rest } t (destinationAddress s 1 d) v 2 := by
  obtain ⟨t, ht, hi, he, hlen, hread⟩ := (inTakesTheFrontInputOrSuspends d leftover (s.startRun.grow s.ip)).1
    ((firstFault_withLenStatusInq _ s _ _ _).trans hf) v rest hq
  exact ⟨t, (step_of_decode_ok hr hb hd).trans ht, hi, he, le_trans (le_max_left _ _) hlen, hread⟩

/-! ### An IN that suspended -/

/-- Inputs that are Int64 and fit the queue are appended (rules R136, R137). -/
theorem appendInputs_of_holds {vs : List Int} {s : State} (hv : ∀ v ∈ vs, Fits64 v)
    (hc : s.cfg.inqCap.holds (s.inq.length + vs.length) = true) :
    appendInputs vs s = .next (.done, { s with inq := s.inq ++ vs }) := by
  rw [appendInputs, if_pos (List.all_eq_true.mpr fun v hm => decide_eq_true (hv v hm)), if_pos hc]

theorem hostOp_addInput {s : State} (fuel : Nat) (v : Int) (hr : s.status ≠ .running) (hf : s.status ≠ .faulted) :
    hostOp fuel (.addInput v) s = appendInputs [v] s := hostOp_eq_performOp hr fun hs => absurd hs hf

/-- One input added to a suspended instance whose queue is empty is the whole queue (rule R137). -/
theorem hostOp_addInput_of_needInput {s : State} (fuel : Nat) {v : Int} (hs : s.status = .needInput) (hq : s.inq = [])
    (hv : Fits64 v) (hc : s.cfg.inqCap.holds 1 = true) :
    hostOp fuel (.addInput v) s = .next (.done, { s with inq := [v] }) := by
  have fits : s.cfg.inqCap.holds (s.inq.length + [v].length) = true := by rw [hq]; exact hc
  rw [hostOp_addInput fuel v (by simp [hs]) (by simp [hs]),
    appendInputs_of_holds (fun u hu => List.mem_singleton.mp hu ▸ hv) fits, hq, List.nil_append]

/-- Settles O43: the suspension keeps IP and memory, so the next step fetches the same IN with its checks still passed, now
with the added input in the queue. -/
theorem suspendedInputResumes : Obligations.SuspendedInputResumes := by
  intro s d v fuel hrun hq hb hd hf hv hc
  obtain ⟨n, suspended⟩ := step_inp_of_nil hrun hb hd hf hq
  have added := hostOp_addInput_of_needInput (s := { s with len := n, status := .needInput }) fuel rfl hq hv hc
  obtain ⟨x, resumed, hi, he, -, hread⟩ := step_inp_of_cons
    (s := { s with len := n, status := .needInput, inq := [v] }) ⟨nofun, nofun⟩ hb hd
    ((firstFault_withLenStatusInq _ s _ _ _).trans hf) rfl
  exact ⟨_, _, x, suspended, rfl, rfl, rfl, hq, added, rfl, resumed, congrArg State.status he, congrArg State.ip he, hi,
    hread⟩

end Sys2Proof.Machine
end

section
/-!
PROOFS. JT and JF (rules R100, R101): each is its instance of `exec_spec`, whose two cases for a jump take the branch on
opposite conditions. The common reason is `jumpWhen_ends`.
-/

namespace Sys2Proof.Machine

/-- Settles O19: the effect that `exec_spec` gives JT takes its target exactly on a non-zero condition. -/
theorem jtJumpsOnNonZero : Obligations.JtJumpsOnNonZero :=
  fun c t leftover s => exec_spec (.jt c t leftover) s

/-- Settles O20: the effect that `exec_spec` gives JF takes its target exactly on a zero condition. -/
theorem jfJumpsOnZero : Obligations.JfJumpsOnZero :=
  fun c t leftover s => exec_spec (.jf c t leftover) s

end Sys2Proof.Machine
end

section
/-!
PROOFS. LT and EQ (rules R110, R111): each is its instance of `exec_spec`, whose effect for a comparison is the one store of
1 or 0. The common reason is `truthThreeOperand_ends`: a comparison has no check of its own.
-/

namespace Sys2Proof.Machine

/-- Settles O15: the effect that `exec_spec` gives LT is the store of 1 exactly where the first source is the smaller
integer. -/
theorem ltStoresTheSignedComparison : Obligations.LtStoresTheSignedComparison :=
  fun s1 s2 d leftover s => exec_spec (.lt s1 s2 d leftover) s

/-- Settles O16: the effect that `exec_spec` gives EQ is the store of 1 exactly where the sources are equal. -/
theorem eqStoresTheEquality : Obligations.EqStoresTheEquality :=
  fun s1 s2 d leftover s => exec_spec (.eq s1 s2 d leftover) s

end Sys2Proof.Machine
end

section
/-!
PROOFS. ARB (rule R120): its instance of `exec_spec`. The common reason is `execArb_ends`: reading the operand and the check
for leftover digits only grow LEN, so the sum is that of the old base.
-/

namespace Sys2Proof.Machine

/-- Settles O21: the effect that `exec_spec` gives ARB is the exact sum of the old base and the operand in RB. -/
theorem arbAddsToTheRelativeBase : Obligations.ArbAddsToTheRelativeBase :=
  fun s1 leftover s => exec_spec (.arb s1 leftover) s

end Sys2Proof.Machine
end

section
/-!
PROOFS. HLT (rule R125). Its completion is its instance of `exec_spec`. Its fault is stated exactly, where `exec_spec` lets
LEN grow: HLT reads no operand, so the leftover check traps in the state it was given.
-/

namespace Sys2Proof.Machine

/-- Digits above the opcode's modes trap (rule R59), in the state as it is. -/
theorem checkLeftover_of_ne_zero (w : Int) {rest : Nat} (h : rest ≠ 0) (s : State) :
    checkLeftover w rest s = .trap .leftoverModeDigits w s := if_neg h

theorem exec_hlt_of_leftover {rest : Nat} (h : rest ≠ 0) (s : State) :
    exec (.hlt rest) s = s.faultOut .leftoverModeDigits (encode (.hlt rest)) := by
  change execHlt rest s = _
  rw [execHlt, checkLeftover_of_ne_zero _ h, Res.andThen_trap, Res.outcome_trap]

/-- Settles O22: with nothing left over no check of HLT fails and its effect is the stop; else its one check traps. -/
theorem hltHalts : Obligations.HltHalts := by
  intro leftover s
  refine ⟨fun none_left => ?_, fun left => exec_hlt_of_leftover left s⟩
  obtain ⟨t, completes, rfl⟩ := (exec_spec (.hlt leftover) s).1 ((leftoverFault_eq_none _ leftover).2 none_left)
  exact completes

end Sys2Proof.Machine
end

section
/-!
PROOFS. STATUS during a run (rule R133, row Running): the effect of an instruction names the STATUS it leaves, and every
check of an instruction fails with one of the causes 1 to 8 of rule R161.
-/

namespace Sys2Proof.Machine

/-! ### The causes that the checks of an instruction record -/

/-- A check that fails records one of the causes that an instruction can raise: 1 to 8 of rule R161. -/
def InstructionCause (fault : Option FaultRecord) : Prop := ∀ f, fault = some f → 1 ≤ f.1.code ∧ f.1.code ≤ 8

theorem InstructionCause.of_some {c : Cause} (n : Int) (hc : 1 ≤ c.code ∧ c.code ≤ 8) : InstructionCause (some (c, n)) :=
  fun _ e => Option.some.inj e ▸ hc

theorem InstructionCause.of_failing (b : Bool) {c : Cause} (n : Int) (hc : 1 ≤ c.code ∧ c.code ≤ 8) :
    InstructionCause (failing b (c, n)) := by
  cases b with
  | false => exact nofun
  | true => exact .of_some n hc

theorem InstructionCause.of_firstOf {l : List (Option FaultRecord)} (h : ∀ x ∈ l, InstructionCause x) :
    InstructionCause (firstOf l) := by
  induction l with
  | nil => exact nofun
  | cons x l ih =>
    obtain ⟨hx, hl⟩ := List.forall_mem_cons.mp h
    cases x with
    | none => exact ih hl
    | some f => exact hx

/-- An instruction's own check comes after those of its operands. -/
theorem InstructionCause.of_firstOf_append {l : List (Option FaultRecord)} {x : Option FaultRecord}
    (hl : ∀ y ∈ l, InstructionCause y) (hx : InstructionCause x) : InstructionCause (firstOf (l ++ [x])) :=
  .of_firstOf (List.forall_mem_append.mpr ⟨hl, List.forall_mem_singleton.mpr hx⟩)

theorem addressFault_cause (s : State) (w : Int) (k : Nat) (m : Mode) : InstructionCause (addressFault s w k m) :=
  .of_firstOf <| by simp [InstructionCause.of_failing, Cause.code]

theorem sourceFault_cause (s : State) (w : Int) (k : Nat) (m : Mode) : InstructionCause (sourceFault s w k m) := by
  cases m with
  | position | relative => exact addressFault_cause s w k _
  | immediate => exact .of_failing _ _ (by decide)
  | invalid d => exact .of_some w (by decide)

theorem destinationFault_cause (s : State) (w : Int) (k : Nat) (m : Mode) : InstructionCause (destinationFault s w k m) := by
  cases m with
  | position | relative => exact addressFault_cause s w k _
  | immediate | invalid => exact .of_some w (by decide)

theorem leftoverFault_cause (w : Int) (rest : Nat) : InstructionCause (leftoverFault w rest) :=
  .of_failing _ w (by decide)

theorem overflowFault_cause (w r : Int) : InstructionCause (overflowFault w r) := .of_failing _ w (by decide)

theorem targetFault_cause (taken : Bool) (target : Int) : InstructionCause (targetFault taken target) :=
  .of_failing _ target (by decide)

theorem threeOperandFaults_cause (s : State) (w : Int) (s1 s2 d : Mode) (rest : Nat) :
    ∀ x ∈ threeOperandFaults s w s1 s2 d rest, InstructionCause x := by
  simp [threeOperandFaults, sourceFault_cause, destinationFault_cause, leftoverFault_cause]

theorem jumpFaults_cause (s : State) (w : Int) (c t : Mode) (rest : Nat) :
    ∀ x ∈ jumpFaults s w c t rest, InstructionCause x := by
  simp [jumpFaults, sourceFault_cause, leftoverFault_cause]

/-- An instruction's first failing check records one of the causes 1 to 8. -/
theorem firstFault_cause (i : Instr) (s : State) : InstructionCause (firstFault i s) := by
  cases i with
  | add | mul => exact .of_firstOf_append (threeOperandFaults_cause s _ _ _ _ _) (overflowFault_cause _ _)
  | jt | jf => exact .of_firstOf_append (jumpFaults_cause s _ _ _ _) (targetFault_cause _ _)
  | lt | eq => exact .of_firstOf (threeOperandFaults_cause s _ _ _ _ _)
  | inp => exact .of_firstOf (by simp [destinationFault_cause, leftoverFault_cause])
  | out => exact .of_firstOf (by simp [sourceFault_cause, leftoverFault_cause])
  | arb => exact .of_firstOf (by simp [sourceFault_cause, leftoverFault_cause, overflowFault_cause])
  | hlt => exact leftoverFault_cause _ _

/-! ### The STATUS that an instruction leaves -/

/-- An effect keeps STATUS but for the three stops: IN without an input, OUT and HLT (rule R132). -/
theorem Effect.status {i : Instr} {s t : State} (he : Effect i s t) :
    t.status = s.status ∨ (t.status = .needInput ∧ s.inq = [] ∧ ∃ m, i = .inp m i.leftover) ∨
      (t.status = .haveOutput ∧ ∃ m, i = .out m i.leftover) ∨ (t.status = .halted ∧ i = .hlt i.leftover) := by
  cases i with
  | add | mul | lt | eq => exact .inl (congrArg State.status he.1 :)
  | jt | jf | arb => exact .inl (congrArg State.status he.2 :)
  | inp d rest =>
    rcases he with ⟨hq, -, e⟩ | ⟨v, tail, -, -, e, -⟩
    · exact .inr (.inl ⟨congrArg State.status e, hq, d, rfl⟩)
    · exact .inl (congrArg State.status e :)
  | out m rest => exact .inr (.inr (.inl ⟨congrArg State.status he.2, m, rfl⟩))
  | hlt rest => exact .inr (.inr (.inr ⟨congrArg State.status he, rfl⟩))

/-- Settles O31: where no check fails the effect names STATUS, and the first check that fails records its cause. -/
theorem statusChangesOnlyByTheStateMachine : Obligations.StatusChangesOnlyByTheStateMachine := by
  intro i s hs
  cases hf : firstFault i s with
  | none =>
    obtain ⟨t, ht, he⟩ := (exec_spec i s).1 hf
    have after := he.status
    rw [hs, leftover_eq_zero_of_firstFault hf] at after
    exact .inl ⟨t, ht, after⟩
  | some f =>
    obtain ⟨t, ht, he, -⟩ := (exec_spec i s).2 f.1 f.2 hf
    have hcause : t.cause = f.1 := (congrArg State.cause he :)
    exact .inr ⟨t, ht, congrArg State.status he, hcause ▸ firstFault_cause i s f hf⟩

end Sys2Proof.Machine
end

section
/-!
PROOFS. The step and the run (rules R130, R131): a step of a run answers a next state or a faulted engine, so a run is its
first step and then the rest of the loop (`runLoop_startRun_succ`), and it ends at its first stop.
-/

namespace Sys2Proof.Machine

/-! ### The step -/

/-- Settles O34: the state in which the fetched instruction runs has STATUS Running and LEN past IP. -/
theorem stepRunsTheDecodedInstruction : Obligations.StepRunsTheDecodedInstruction :=
  fun _ _ => step_of_decode_ok

/-- An instruction answers a next state or a faulted engine (rule R160). -/
theorem exec_outcome (i : Instr) (s : State) :
    (∃ t, exec i s = .next t) ∨ ∃ t, exec i s = .fault (.faulted t) ∧ t.status = .faulted := by
  cases hf : firstFault i s with
  | none =>
    obtain ⟨t, ht, -⟩ := (exec_spec i s).1 hf
    exact .inl ⟨t, ht⟩
  | some f =>
    obtain ⟨t, ht, he, -⟩ := (exec_spec i s).2 f.1 f.2 hf
    exact .inr ⟨t, ht, congrArg State.status he⟩

/-- A `Step` answers a next state or a faulted engine, whether its fetch or its instruction decides. -/
theorem engineStep_outcome (s : State) :
    (∃ t, engineStep s = .next t) ∨ ∃ t, engineStep s = .fault (.faulted t) ∧ t.status = .faulted := by
  cases hf : fetch s with
  | ok i u => rw [engineStep_of_fetch_ok hf]; exact exec_outcome i u
  | trap c n u => rw [engineStep_of_fetch_trap hf]; exact .inr ⟨_, rfl, rfl⟩

theorem step_leaves_of_canRun {s : State} (hr : s.CanRun) : ∃ t, stateAfter (step s) = some t := by
  rw [step_of_canRun hr]
  obtain ⟨t, h⟩ | ⟨t, h, -⟩ := engineStep_outcome s.startRun <;> exact ⟨t, by rw [h]; rfl⟩

theorem step_of_halted {s : State} (hs : s.status = .halted) : step s = s.faultOut .runAfterHalt s.ip := by
  simp only [step, runStep, hs]

/-! ### run -/

theorem State.canRun_of_running {s : State} (hs : s.status = .running) : s.CanRun := by simp [State.CanRun, hs]

theorem hostOp_run {s : State} (fuel : Nat) (hr : s.status ≠ .running) : hostOp fuel .run s = hostRun fuel s :=
  hostOp_eq_performOp hr fun _ => rfl

theorem hostRun_of_canRun {s : State} (fuel : Nat) (h : s.CanRun) (hr : s.status ≠ .running) :
    hostRun fuel s = runLoop fuel s.startRun := by
  obtain ⟨hh, hf⟩ := h
  cases hs : s.status
  case halted => exact absurd hs hh
  case faulted => exact absurd hs hf
  case running => exact absurd hs hr
  all_goals simp only [hostRun, hs]

/-- Where a run can start, `run` is the loop (rule R130). -/
theorem hostOp_run_of_canRun {s : State} (fuel : Nat) (h : s.CanRun) (hr : s.status ≠ .running) :
    hostOp fuel .run s = runLoop fuel s.startRun := (hostOp_run fuel hr).trans (hostRun_of_canRun fuel h hr)

/-- A state that is not Running ends the loop, with any fuel. -/
theorem runLoop_of_not_running (fuel : Nat) {s : State} (hs : s.status ≠ .running) :
    runLoop fuel s = .next (s.runResult, s) := by
  cases fuel with
  | zero => rfl
  | succ fuel => rw [runLoop, if_neg hs]

/-- The loop makes its first step and goes on while STATUS is Running (rule R130). -/
theorem runLoop_startRun_succ (fuel : Nat) {s t : State} (hr : s.CanRun) (h : stateAfter (step s) = some t) :
    runLoop (fuel + 1) s.startRun = if t.status = .running then runLoop fuel t else .next (t.runResult, t) := by
  rw [step_of_canRun hr] at h
  rw [runLoop, if_pos s.startRun_status]
  obtain ⟨u, hu⟩ | ⟨u, hu, hstatus⟩ := engineStep_outcome s.startRun <;> rw [hu] at h ⊢ <;> cases h
  · by_cases hs : t.status = .running
    · rw [if_pos hs]
    · rw [if_neg hs]
      exact runLoop_of_not_running fuel hs
  · rw [if_neg (by simp [hstatus])]

/-- Settles O45: `run` is the loop from its start, which begins with the step. -/
theorem runIsItsFirstStepThenTheRest : Obligations.RunIsItsFirstStepThenTheRest := by
  intro fuel s t hrun hr ht
  rw [hostOp_run_of_canRun _ hrun hr, runLoop_startRun_succ fuel hrun ht]

/-- Settles O35: neither the step nor `run` of a halted instance does more than the fault entry. -/
theorem runAfterHaltFaults : Obligations.RunAfterHaltFaults :=
  fun _ fuel hs => ⟨step_of_halted hs, (hostOp_run fuel (by simp [hs])).trans (hostRun_of_halted fuel hs)⟩

/-! ### The end of a run -/

/-- A loop that ends within its fuel ends at its first stop (rules R130, R147). -/
theorem runLoop_ends {fuel : Nat} {s t : State} {r : HostResult} (hrun : s.CanRun)
    (h : runLoop fuel s.startRun = .next (r, t)) (hu : r ≠ .unfinished) :
    (∃ n, 1 ≤ n ∧ n ≤ fuel ∧ StepsTo n s t) ∧ t.status ≠ .running ∧ r = t.runResult ∧
      ∀ more, fuel ≤ more → runLoop more s.startRun = .next (r, t) := by
  induction fuel generalizing s with
  | zero => cases h; exact absurd rfl hu
  | succ fuel ih =>
    obtain ⟨u, first⟩ := step_leaves_of_canRun hrun
    have unroll := fun fuel => runLoop_startRun_succ fuel hrun first
    rw [unroll] at h
    by_cases hs : u.status = .running
    · rw [if_pos hs, ← u.startRun_of_running hs] at h
      obtain ⟨⟨n, -, hn, rest⟩, stopped, result, same⟩ := ih (State.canRun_of_running hs) h
      refine ⟨⟨n + 1, Nat.le_add_left 1 n, Nat.succ_le_succ hn, u, first, fun _ => hs, rest⟩, stopped, result, ?_⟩
      rintro (_ | more) hm
      · cases hm
      · rw [unroll, if_pos hs, ← u.startRun_of_running hs]
        exact same more (Nat.le_of_succ_le_succ hm)
    · rw [if_neg hs] at h
      cases h
      refine ⟨⟨1, le_rfl, Nat.le_add_left 1 fuel, _, first, fun hn => absurd rfl hn, rfl⟩, hs, rfl, ?_⟩
      rintro (_ | more) hm
      · cases hm
      · rw [unroll, if_neg hs]

/-- Settles O44: `run` is the loop from its start, whatever the fuel, and `runLoop_ends` is about that loop. -/
theorem runEndsAtItsFirstStop : Obligations.RunEndsAtItsFirstStop := by
  intro fuel s t r hrun hr h hu
  simp only [hostOp_run_of_canRun _ hrun hr] at h ⊢
  exact runLoop_ends hrun h hu

end Sys2Proof.Machine
end

section
/-!
PROOFS. The host operations one by one (rules R134, R136 to R142): which are refused, what each admitted one answers, and
that none but `run` and `collect_outputs` changes STATUS unless a peek or poke is past MEM_CAP (rule R133).
-/

namespace Sys2Proof.Machine

/-! ### What is refused -/

theorem hostOp_of_running (fuel : Nat) (op : HostOp) {s : State} (hs : s.status = .running) :
    hostOp fuel op s = .refused .runInProgress := if_pos hs

theorem hostOp_of_needsSound (fuel : Nat) {op : HostOp} {s : State} (hs : s.status = .faulted)
    (hop : op.needsSound = true) : hostOp fuel op s = .refused .instanceFaulted := by
  unfold hostOp
  rw [if_neg (by simp [hs]), if_pos ⟨hs, hop⟩]

/-- Settles O51: the five operations are those that need a sound instance. -/
theorem faultedInstanceRefusesTheHost : Obligations.FaultedInstanceRefusesTheHost := by
  intro s fuel a v vs op
  refine ⟨fun hs => ?_, hostOp_of_running fuel op⟩
  have refused : ∀ op : HostOp, op.needsSound = true → hostOp fuel op s = .refused .instanceFaulted :=
    fun _ => hostOp_of_needsSound fuel hs
  exact ⟨refused _ rfl, refused _ rfl, refused _ rfl, refused _ rfl, refused _ rfl⟩

/-! ### Inputs -/

theorem hostOp_withInputs {s : State} (fuel : Nat) (vs : List Int) (hr : s.status ≠ .running) (hf : s.status ≠ .faulted) :
    hostOp fuel (.withInputs vs) s = appendInputs vs s := hostOp_eq_performOp hr fun hs => absurd hs hf

/-- Inputs that do not fit the queue are refused (rules R136, R137). -/
theorem appendInputs_of_not_holds {vs : List Int} {s : State} (hv : ∀ v ∈ vs, Fits64 v)
    (hc : s.cfg.inqCap.holds (s.inq.length + vs.length) = false) : appendInputs vs s = .refused .inputQueueFull := by
  rw [appendInputs, if_pos (List.all_eq_true.mpr fun v hm => decide_eq_true (hv v hm)), if_neg (by simp [hc])]

/-- Settles O47: both operations append, `add_input` a list of one. -/
theorem inputsAreAppendedAtTheBack : Obligations.InputsAreAppendedAtTheBack := by
  intro s vs v fuel hr hf hvs hv
  have single : ∀ x ∈ [v], Fits64 x := List.forall_mem_singleton.mpr hv
  rw [hostOp_withInputs fuel vs hr hf, hostOp_addInput fuel v hr hf]
  exact ⟨appendInputs_of_holds hvs, appendInputs_of_not_holds hvs, appendInputs_of_holds single,
    appendInputs_of_not_holds single⟩

/-! ### peek, poke and clone -/

theorem peek_of_below {a : Nat} {s : State} (h : s.cfg.memCap.below a = true) :
    peek a s = .next (.value (s.mem.read a), s.grow a) := by rw [peek, memRead_of_below h]

/-- Settles O48: a peek only grows LEN, and the memory that a poke leaves reads its value in its cell. -/
theorem peekReadsAndPokeWritesOneCell : Obligations.PeekReadsAndPokeWritesOneCell := by
  intro s a b v fuel hr hf hv ha hb
  obtain ⟨t, poked, ht, hlen, -, hread⟩ := poke_of_below hv ha
  have hstatus : t.status = s.status := (congrArg State.status ht :)
  have hcfg : t.cfg = s.cfg := (congrArg State.cfg ht :)
  refine ⟨⟨_, (hostOp_peek fuel a hr hf).trans (peek_of_below ha), OnlyGrown.grow s a⟩,
    t, t.grow b, (hostOp_poke fuel a v hr hf).trans poked, ht, hlen, ?_, OnlyGrown.grow t b⟩
  rw [hostOp_peek fuel b (hstatus ▸ hr) (hstatus ▸ hf), peek_of_below (hcfg ▸ hb), hread]

/-- Settles O50: a clone is admitted on a sound instance, and it makes that instance. -/
theorem cloneIsAnEqualInstance : Obligations.CloneIsAnEqualInstance :=
  fun _ _ hr hf => hostOp_eq_performOp hr fun hs => absurd hs hf

/-! ### STATUS -/

theorem peek_status {a : Nat} {s t : State} {r : HostResult} (h : peek a s = .next (r, t)) :
    t.status = s.status ∨ (s.cfg.memCap.below a = false ∧ t = s.raise .memoryExhausted a) := by
  cases ha : s.cfg.memCap.below a with
  | true => rw [peek_of_below ha] at h; cases h; exact .inl rfl
  | false => rw [peek_of_not_below ha] at h; cases h; exact .inr ⟨rfl, rfl⟩

theorem poke_fits {a : Nat} {v : Int} {s : State} {x : HostResult × State} (h : poke a v s = .next x) : Fits64 v := by
  by_contra hv
  rw [poke, if_neg hv] at h
  cases h

theorem poke_status {a : Nat} {v : Int} {s t : State} {r : HostResult} (h : poke a v s = .next (r, t)) :
    t.status = s.status ∨ (s.cfg.memCap.below a = false ∧ t = s.raise .memoryExhausted a) := by
  cases ha : s.cfg.memCap.below a with
  | true =>
    obtain ⟨u, poked, hu, -⟩ := poke_of_below (poke_fits h) ha
    rw [poked] at h
    cases h
    exact .inl (congrArg State.status hu :)
  | false => rw [poke_of_not_below (poke_fits h) ha] at h; cases h; exact .inr ⟨rfl, rfl⟩

/-- Settles O52: of the six other operations only a peek or poke past MEM_CAP writes STATUS, by its fault entry. -/
theorem onlyRunsChangeStatusFromOutside : Obligations.OnlyRunsChangeStatusFromOutside := by
  intro fuel op s t r hrun hcollect h
  obtain ⟨-, hp⟩ := hostOp_eq_next h
  cases op with
  | run => exact absurd rfl hrun
  | collectOutputs => exact absurd rfl hcollect
  | create cfg program => rw [(createBeside_eq_next hp).1]; exact .inl rfl
  | withInputs vs | addInput v => rw [(appendInputs_eq_next hp).2.1]; exact .inl rfl
  | clone => rw [(clone_eq_next hp).2]; exact .inl rfl
  | peek a =>
    refine (peek_status hp).imp_right ?_
    rintro ⟨ha, rfl⟩
    exact ⟨rfl, rfl, a, ha, rfl, .inl rfl⟩
  | poke a v =>
    refine (poke_status hp).imp_right ?_
    rintro ⟨ha, rfl⟩
    exact ⟨rfl, rfl, a, ha, rfl, .inr ⟨v, rfl⟩⟩

/-! ### collect_outputs -/

theorem hostOp_collectOutputs {s : State} (fuel : Nat) (hr : s.status ≠ .running) :
    hostOp fuel .collectOutputs s = collectLoop fuel fuel [] s := hostOp_eq_performOp hr fun _ => rfl

/-- Settles O54: one unfolding of the loop, at each result that a run can have. -/
theorem collectOutputsFollowsTheRuns : Obligations.CollectOutputsFollowsTheRuns := by
  intro fuel runs outs s t
  refine ⟨hostOp_collectOutputs fuel, fun v output => ?_, fun halted => ?_, fun starved => ?_, fun c n faulted => ?_⟩
  · simp only [collectLoop, output]
  · simp only [collectLoop, halted]
  · simp only [collectLoop, starved, State.raise]
  · simp only [collectLoop, faulted]

end Sys2Proof.Machine
end

section
/-!
PROOFS. How a step ends (rules R160, R197): a next state is never Faulted, since the instruction that leaves it ran with STATUS
Running, and no effect writes Faulted; a faulted engine repeats its fault (rule R176).
-/

namespace Sys2Proof.Machine

/-- No instruction of a run completes with STATUS Faulted (rule R133, row Running). -/
theorem exec_next_not_faulted {i : Instr} {s t : State} (hs : s.status = .running) (h : exec i s = .next t) :
    t.status ≠ .faulted := by
  obtain ⟨u, hu, hstatus⟩ | ⟨u, hu, -⟩ := statusChangesOnlyByTheStateMachine i s hs <;> cases hu.symm.trans h
  obtain e | ⟨e, -⟩ | ⟨e, -⟩ | ⟨e, -⟩ := hstatus <;> simp [e]

theorem fetch_ok_status {s t : State} {i : Instr} (h : fetch s = .ok i t) : t.status = s.status := by
  have grown := fetch_ensures s
  rw [h] at grown
  obtain ⟨n, -, -, rfl⟩ := GrownWithin.eq_withLen grown
  rfl

theorem engineStep_next_not_faulted {s t : State} (hs : s.status = .running) (h : engineStep s = .next t) :
    t.status ≠ .faulted := by
  cases hf : fetch s with
  | ok i u => exact exec_next_not_faulted ((fetch_ok_status hf).trans hs) ((engineStep_of_fetch_ok hf).symm.trans h)
  | trap c n u => cases (engineStep_of_fetch_trap hf).symm.trans h

theorem step_of_faulted {s : State} (hs : s.status = .faulted) : step s = .fault (.faulted s) := by
  simp only [step, runStep, hs]

/-- Settles O37: a halted or faulted engine faults, and any other makes a `Step` with STATUS Running. -/
theorem stepEndsInANextStateOrAFault : Obligations.StepEndsInANextStateOrAFault := by
  intro s
  by_cases hh : s.status = .halted
  · exact .inr ⟨_, step_of_halted hh, rfl⟩
  by_cases hf : s.status = .faulted
  · exact .inr ⟨s, step_of_faulted hf, hf⟩
  rw [step_of_canRun ⟨hh, hf⟩]
  exact (engineStep_outcome _).imp_left fun ⟨t, ht⟩ => ⟨t, ht, engineStep_next_not_faulted s.startRun_status ht⟩

/-- Settles O36: both the step and `run` of a faulted engine answer its fault and leave it. -/
theorem faultedNeverResumes : Obligations.FaultedNeverResumes :=
  fun _ fuel hs => ⟨step_of_faulted hs, (hostOp_run fuel (by simp [hs])).trans (hostRun_of_faulted fuel hs)⟩

end Sys2Proof.Machine
end

section
/-!
PROOFS. The program text (rules R192, R193). Each function of the loader reads exactly one production of the grammar: a digit,
a run of digits, an integer, the fields between commas, the newline. The fields between commas are the library's `List.splitOn`,
which undoes the joining by commas of fields that hold no comma.
-/

namespace Sys2Proof.Machine

/-! ### Digits -/

theorem digitValue_digitChar (d : Fin 10) : digitValue (digitChar d) = some d.val := by revert d; decide

/-- Only a digit's character has a value. -/
theorem digitValue_eq_some {c : Char} {v : Nat} (h : digitValue c = some v) : ∃ d : Fin 10, c = digitChar d ∧ v = d.val := by
  unfold digitValue at h
  split at h
  case isFalse => cases h
  case isTrue hc =>
    cases h
    refine ⟨⟨c.toNat - 48, by omega⟩, ?_, rfl⟩
    rw [digitChar, Nat.add_sub_cancel' hc.1, Char.ofNat_toNat]

/-- The value of digits, most significant first, behind digits of value `acc`: `NumberText.magnitude` from any start. -/
def digitsValue (acc : Nat) (ds : List (Fin 10)) : Nat := ds.foldl (fun acc d => 10 * acc + d.val) acc

theorem NumberText.magnitude_eq (n : NumberText) : n.magnitude = digitsValue 0 n.digits := rfl

theorem parseDigits_map (ds : List (Fin 10)) (acc : Nat) : parseDigits (ds.map digitChar) acc = some (digitsValue acc ds) := by
  induction ds generalizing acc with
  | nil => rfl
  | cons d ds ih =>
    rw [List.map_cons, parseDigits, digitValue_digitChar]
    exact ih _

theorem parseDigits_eq_some {cs : List Char} {acc n : Nat} (h : parseDigits cs acc = some n) :
    ∃ ds : List (Fin 10), cs = ds.map digitChar ∧ n = digitsValue acc ds := by
  induction cs generalizing acc with
  | nil => exact ⟨[], rfl, (Option.some.inj h).symm⟩
  | cons c cs ih =>
    rw [parseDigits] at h
    cases hc : digitValue c with
    | none => rw [hc] at h; cases h
    | some v =>
      rw [hc] at h
      obtain ⟨d, rfl, rfl⟩ := digitValue_eq_some hc
      obtain ⟨ds, rfl, rfl⟩ := ih h
      exact ⟨d :: ds, rfl, rfl⟩

/-- At least one digit (rule R192). -/
theorem parseNatural_eq_some_iff {cs : List Char} {n : Nat} :
    parseNatural cs = some n ↔ ∃ ds : List (Fin 10), ds ≠ [] ∧ cs = ds.map digitChar ∧ n = digitsValue 0 ds := by
  constructor
  · intro h
    cases cs with
    | nil => cases h
    | cons c cs =>
      obtain ⟨ds, hcs, hn⟩ := parseDigits_eq_some h
      exact ⟨ds, (by rintro rfl; cases hcs), hcs, hn⟩
  · rintro ⟨ds, hne, rfl, rfl⟩
    cases ds with
    | nil => exact absurd rfl hne
    | cons d ds => exact parseDigits_map (d :: ds) 0

/-! ### Integers -/

theorem digitChar_ne_minus (d : Fin 10) : digitChar d ≠ '-' := by revert d; decide

theorem parseSigned_minus (cs : List Char) : parseSigned ('-' :: cs) = (parseNatural cs).map fun n : Nat => -(n : Int) := by
  rw [parseSigned, if_pos rfl]
  cases parseNatural cs <;> rfl

theorem parseSigned_of_ne_minus {c : Char} (h : c ≠ '-') (cs : List Char) :
    parseSigned (c :: cs) = (parseNatural (c :: cs)).map fun n : Nat => (n : Int) := by
  rw [parseSigned, if_neg h]
  cases parseNatural (c :: cs) <;> rfl

/-- An optional minus and at least one digit, with any value (rule R192). -/
theorem parseSigned_eq_some_iff {cs : List Char} {v : Int} :
    parseSigned cs = some v ↔ ∃ n : NumberText, n.digits ≠ [] ∧ cs = n.chars ∧ v = n.value := by
  constructor
  · intro h
    cases cs with
    | nil => cases h
    | cons c cs =>
      by_cases hc : c = '-'
      · subst hc
        rw [parseSigned_minus] at h
        obtain ⟨m, hm, rfl⟩ := Option.map_eq_some_iff.1 h
        obtain ⟨ds, hne, rfl, rfl⟩ := parseNatural_eq_some_iff.1 hm
        exact ⟨⟨true, ds⟩, hne, rfl, rfl⟩
      · rw [parseSigned_of_ne_minus hc] at h
        obtain ⟨m, hm, rfl⟩ := Option.map_eq_some_iff.1 h
        obtain ⟨ds, hne, hcs, rfl⟩ := parseNatural_eq_some_iff.1 hm
        exact ⟨⟨false, ds⟩, hne, hcs, rfl⟩
  · rintro ⟨⟨minus, ds⟩, hne, rfl, rfl⟩
    have digits := parseNatural_eq_some_iff.2 ⟨ds, hne, rfl, rfl⟩
    cases minus with
    | true => exact (parseSigned_minus _).trans (congrArg (Option.map _) digits)
    | false =>
      cases ds with
      | nil => exact absurd rfl hne
      | cons d ds => exact (parseSigned_of_ne_minus (digitChar_ne_minus d) _).trans (congrArg (Option.map _) digits)

/-- "Each integer must be an `Int64`" (rule R192). -/
theorem parseInteger_eq_some_iff {cs : List Char} {v : Int} :
    parseInteger cs = some v ↔ ∃ n : NumberText, n.Legal ∧ cs = n.chars ∧ v = n.value := by
  constructor
  · intro h
    unfold parseInteger at h
    split at h
    case h_2 => cases h
    case h_1 w hw =>
      split at h
      case isFalse => cases h
      case isTrue fits =>
        cases h
        obtain ⟨n, hne, hcs, rfl⟩ := parseSigned_eq_some_iff.1 hw
        exact ⟨n, ⟨hne, fits⟩, hcs, rfl⟩
  · rintro ⟨n, ⟨hne, fits⟩, rfl, rfl⟩
    simp only [parseInteger, parseSigned_eq_some_iff.2 ⟨n, hne, rfl, rfl⟩, if_pos fits]

/-- Every field is an integer, and the values are theirs in order. -/
theorem parseFields_eq_some_iff {fields : List (List Char)} {vs : List Int} :
    parseFields fields = some vs ↔
      ∃ ns : List NumberText, (∀ n ∈ ns, n.Legal) ∧ fields = ns.map NumberText.chars ∧ vs = ns.map NumberText.value := by
  constructor
  · intro h
    induction fields generalizing vs with
    | nil => exact ⟨[], nofun, rfl, (Option.some.inj h).symm⟩
    | cons field fields ih =>
      unfold parseFields at h
      split at h
      case h_2 => cases h
      case h_1 v ws hv hws =>
        cases h
        obtain ⟨n, legal, rfl, rfl⟩ := parseInteger_eq_some_iff.1 hv
        obtain ⟨ns, legals, rfl, rfl⟩ := ih hws
        exact ⟨n :: ns, List.forall_mem_cons.2 ⟨legal, legals⟩, rfl, rfl⟩
  · rintro ⟨ns, legals, rfl, rfl⟩
    induction ns with
    | nil => rfl
    | cons n ns ih =>
      obtain ⟨legal, legals⟩ := List.forall_mem_cons.1 legals
      simp only [List.map_cons, parseFields, parseInteger_eq_some_iff.2 ⟨n, legal, rfl, rfl⟩, ih legals]

/-! ### Commas -/

theorem splitCommas_eq_splitOn (cs : List Char) : splitCommas cs = cs.splitOn ',' := by
  induction cs with
  | nil => rfl
  | cons c cs ih =>
    rw [splitCommas, ih, List.splitOn_cons_eq_if_modifyHead]
    by_cases hc : c = ','
    · simp [hc]
    · cases h : cs.splitOn ',' with
      | nil => exact absurd h (List.splitOn_ne_nil _ _)
      | cons field fields => simp [hc]

/-- The grammar's sequence of integers is the library's join (rule R192). -/
theorem commaJoin_eq_intercalate (ns : List NumberText) : commaJoin ns = [','].intercalate (ns.map NumberText.chars) := by
  induction ns with
  | nil => rfl
  | cons n ns ih =>
    cases ns with
    | nil => exact List.intercalate_singleton.symm
    | cons m ns => simp [commaJoin, ih]

/-- An integer is made of digits and a minus. -/
theorem NumberText.not_mem_chars {c : Char} (hm : c ≠ '-') (hd : digitValue c = none) (n : NumberText) : c ∉ n.chars := by
  have no_digit : c ∉ n.digits.map digitChar := by
    rw [List.mem_map]
    rintro ⟨d, -, rfl⟩
    rw [digitValue_digitChar] at hd
    cases hd
  unfold NumberText.chars
  split
  · exact List.not_mem_cons_of_ne_of_not_mem hm no_digit
  · exact no_digit

/-- Between the newline and the start there are integers and commas. -/
theorem not_mem_commaJoin {c : Char} (hc : c ≠ ',') (hm : c ≠ '-') (hd : digitValue c = none) (ns : List NumberText) :
    c ∉ commaJoin ns := by
  induction ns with
  | nil => exact List.not_mem_nil
  | cons n ns ih =>
    have chars := n.not_mem_chars hm hd
    cases ns with
    | nil => exact chars
    | cons m ns => simp [commaJoin, chars, hc, ih]

theorem splitCommas_commaJoin {ns : List NumberText} (hne : ns ≠ []) :
    splitCommas (commaJoin ns) = ns.map NumberText.chars := by
  have no_comma : ∀ field ∈ ns.map NumberText.chars, ',' ∉ field :=
    List.forall_mem_map.2 fun n _ => n.not_mem_chars (by decide) (by decide)
  rw [splitCommas_eq_splitOn, commaJoin_eq_intercalate, List.splitOn_intercalate _ no_comma (by simpa using hne)]

/-- Fields that are integers are those of a sequence of integers separated by commas, and of no other text. -/
theorem splitCommas_eq_map_chars_iff {cs : List Char} {ns : List NumberText} :
    splitCommas cs = ns.map NumberText.chars ↔ ns ≠ [] ∧ cs = commaJoin ns := by
  constructor
  · intro h
    rw [splitCommas_eq_splitOn] at h
    refine ⟨?_, by rw [commaJoin_eq_intercalate, ← h, List.intercalate_splitOn]⟩
    rintro rfl
    exact List.splitOn_ne_nil _ _ h
  · rintro ⟨hne, rfl⟩
    exact splitCommas_commaJoin hne

/-! ### The newline -/

/-- Whatever the text, what is dropped is one optional newline at its end. -/
theorem dropNewline_append_terminator (text : List Char) :
    ∃ terminator, IsTerminator terminator ∧ text = dropNewline text ++ terminator := by
  fun_induction dropNewline text with
  | case1 | case3 | case6 => exact ⟨[], .inl rfl, by simp⟩
  | case2 | case5 => exact ⟨['\n'], .inr (.inl rfl), rfl⟩
  | case4 c d crlf =>
    obtain ⟨rfl, rfl⟩ := crlf
    exact ⟨['\r', '\n'], .inr (.inr rfl), rfl⟩
  | case7 c d e cs ih =>
    obtain ⟨terminator, ht, htext⟩ := ih
    exact ⟨terminator, ht, congrArg (c :: ·) htext⟩

/-- A character of no newline stays, whatever follows it. -/
theorem dropNewline_cons {c : Char} (hn : c ≠ '\n') (hr : c ≠ '\r') (cs : List Char) :
    dropNewline (c :: cs) = c :: dropNewline cs := by
  rcases cs with _ | ⟨d, _ | ⟨e, cs⟩⟩
  · simp [dropNewline, hn]
  · by_cases hd : d = '\n' <;> simp [dropNewline, hr, hd]
  · rfl

theorem dropNewline_append {cs terminator : List Char} (hn : '\n' ∉ cs) (hr : '\r' ∉ cs) (ht : IsTerminator terminator) :
    dropNewline (cs ++ terminator) = cs := by
  induction cs with
  | nil => obtain rfl | rfl | rfl := ht <;> rfl
  | cons c cs ih =>
    obtain ⟨hnc, hn⟩ := List.ne_and_not_mem_of_not_mem_cons hn
    obtain ⟨hrc, hr⟩ := List.ne_and_not_mem_of_not_mem_cons hr
    rw [List.cons_append, dropNewline_cons hnc.symm hrc.symm, ih hn hr]

/-! ### The program -/

/-- Settles O55: the newline and the commas can be taken off a text in one way, and each field is read as one integer. -/
theorem loaderReadsExactlyTheGrammar : Obligations.LoaderReadsExactlyTheGrammar := by
  intro text vs
  rw [parseProgram, parseFields_eq_some_iff]
  constructor
  · rintro ⟨ns, legals, fields, values⟩
    obtain ⟨hne, joined⟩ := splitCommas_eq_map_chars_iff.1 fields
    obtain ⟨terminator, ht, htext⟩ := dropNewline_append_terminator text
    exact ⟨ns, terminator, hne, legals, ht, joined ▸ htext, values⟩
  · rintro ⟨ns, terminator, hne, legals, ht, rfl, values⟩
    have dropped := dropNewline_append (not_mem_commaJoin (by decide) (by decide) (by decide) ns)
      (not_mem_commaJoin (by decide) (by decide) (by decide) ns) ht
    exact ⟨ns, legals, splitCommas_eq_map_chars_iff.2 ⟨hne, dropped⟩, values⟩

theorem loadText_of_isProgramText (cfg : Config) {text : List Char} {vs : List Int} (h : IsProgramText text vs) :
    loadText cfg text = create cfg vs := by
  rw [loadText, (loaderReadsExactlyTheGrammar text vs).2 h]

theorem loadText_of_not_isProgramText (cfg : Config) {text : List Char} (h : ∀ vs, ¬ IsProgramText text vs) :
    loadText cfg text = .fault (.noInstance .parseError 0) := by
  have unread : parseProgram text = none :=
    Option.eq_none_iff_forall_ne_some.2 fun vs hvs => h vs ((loaderReadsExactlyTheGrammar text vs).1 hvs)
  rw [loadText, unread]

/-- Cell i of what `create` makes is the program's i-th value (rule R190). -/
theorem create_read {cfg : Config} {program : List Int} {s : State} (h : create cfg program = .next s) (i : Nat) :
    s.mem.read i = program.getD i 0 := by
  obtain ⟨rfl, -, -⟩ := create_eq_next h
  have read := Memory.read_ofCells 0 program i
  rwa [Nat.zero_add] at read

/-- Settles O56: the loader reads the text exactly where it is a program text, so its two outcomes are these. -/
theorem loadingIsCreateOfTheTextOrParseError : Obligations.LoadingIsCreateOfTheTextOrParseError := by
  intro cfg text
  refine ⟨fun vs h => ?_, loadText_of_not_isProgramText cfg⟩
  rw [loadText_of_isProgramText cfg h]
  exact ⟨rfl, fun _ => create_read⟩

end Sys2Proof.Machine
end

section
/-!
PROOFS. Sample words (rules R51 to R57), one decoding of each family by evaluation of the decoder.
-/

namespace Sys2Proof.Machine

/-- Settles O7: each word is decoded by evaluation. -/
theorem sampleWordsDecode : Obligations.SampleWordsDecode := by
  unfold Obligations.SampleWordsDecode
  decide

end Sys2Proof.Machine
end
